-- ==== Sys2Proof/Word.lean ====
section
/-! DEFINITION. The word types of the block. -/

namespace Sys2Proof

/-- One byte of the Green buffer, bit 0 least significant (R12, R27). -/
abbrev Byte := BitVec 8

/-- The command word `CW` of the command port, 17 bits (R71). -/
abbrev CmdWord := BitVec 17

end Sys2Proof
end

