-- ==== Sys2Proof/Syntax.lean ====
section
/-! DEFINITION. The operations of the block: one constructor of `Instr` per row of spec/opcode_table.json, in the
table's order, with the data their operands are made of. -/

namespace Sys2Proof

/-- `PROTO`: which framer a command runs (R24). -/
inductive Proto where
  /-- 0 = Orange. -/
  | orange
  /-- 1 = Green. -/
  | green
deriving DecidableEq, Repr

/-- A configuration: the six fields of `CFG` (R20). Booleans are 1 for true. `mode` holds an input code (R21: 0 Cool,
1 Heat, 2 Fan, 3 Dry, 4 Auto, 5 to 7 reserved), `fan` an input code (R22: 0 Low, 1 Medium, 2 High, 3 Auto), `temp` an
unsigned temperature that nothing checks (R23). -/
structure Cfg where
  power : Bool
  mode  : BitVec 3
  fan   : BitVec 2
  temp  : BitVec 8
  swing : Bool
  sleep : Bool
deriving DecidableEq, Repr

/-- The three formats that select an operation (R70). `OCODE` and `GBYTES` are data layouts and select none. -/
inductive WordFormat where
  /-- Command word, 17 bits, host to block (R71). -/
  | cw
  /-- Push word, 17 bits, bit encoder or framer to Timeline unit (R72). -/
  | pw
  /-- Bit word, 2 bits, framer to bit encoder (R73). -/
  | bw
deriving DecidableEq, Repr

/-- Width of a format in bits (R70). -/
def WordFormat.width : WordFormat → Nat
  | .cw => 17
  | .pw => 17
  | .bw => 2

/-- The operations of spec/opcode_table.json (R90). -/
inductive Instr where
  /-- `ENC_ORANGE cfg` (R181). -/
  | encOrange (c : Cfg)
  /-- `ENC_GREEN cfg` (R182). -/
  | encGreen (c : Cfg)
  /-- `TL_MARK d` (R102), `d` in microseconds. -/
  | tlMark (d : Nat)
  /-- `TL_SPACE d` (R103), `d` in microseconds. -/
  | tlSpace (d : Nat)
  /-- `MAN0` (R120). -/
  | man0
  /-- `MAN1` (R121). -/
  | man1
  /-- `PD0` (R124). -/
  | pd0
  /-- `PD1` (R125). -/
  | pd1
  /-- `TL_CLEAR` (R100). -/
  | tlClear
  /-- `TL_LOAD seq` (R101). -/
  | tlLoad (seq : List Nat)
  /-- `TL_APPEND other` (R104). -/
  | tlAppend (other : List Nat)
  /-- `TL_READ` (R105). -/
  | tlRead
  /-- `MAN_BIT b` (R122). -/
  | manBit (b : Bool)
  /-- `MAN_NUM v, w` (R123). -/
  | manNum (v w : Nat)
  /-- `PD_BIT b` (R126). -/
  | pdBit (b : Bool)
  /-- `PD_BUF bytes, w` (R127). -/
  | pdBuf (bytes : List Byte) (w : Nat)
  /-- `ORANGE_CODE` (R140). -/
  | orangeCode
  /-- `O_PKT_HEADER` (R141). -/
  | oPktHeader
  /-- `O_CODE_HEADER` (R142). -/
  | oCodeHeader
  /-- `O_CODE_TAIL` (R143). -/
  | oCodeTail
  /-- `O_PKT_TAIL` (R144). -/
  | oPktTail
  /-- `ORANGE_PACKET` (R145). -/
  | orangePacket
  /-- `GREEN_BYTES` (R160). -/
  | greenBytes
  /-- `GREEN_CSUM` (R161). -/
  | greenCsum
  /-- `BITREV8 b` (R162). -/
  | bitrev8 (b : Byte)
  /-- `GREEN_REVERSE` (R163). -/
  | greenReverse
  /-- `G_PKT_HEADER` (R164). -/
  | gPktHeader
  /-- `G_CODE_HEADER` (R165). -/
  | gCodeHeader
  /-- `G_CODE_TAIL` (R165). -/
  | gCodeTail
  /-- `G_PKT_TAIL` (R166). -/
  | gPktTail
  /-- `GREEN_PACKET` (R167). -/
  | greenPacket
  /-- `CMD_ACCEPT` with the command word on the port (R180). -/
  | cmdAccept (cw : CmdWord)
  /-- `DRAIN_BEAT` (R183). -/
  | drainBeat
  /-- `SEND cfg`, the host pseudo-operation (R190). -/
  | send (c : Cfg)
  /-- `RESET`, the `rst` pin (R230). -/
  | reset
deriving DecidableEq, Repr

/-- Whether the operation has a bit pattern of its own (R90, R91): the other rows of the table are macro-operations. -/
def Instr.isEncoded : Instr → Bool
  | .encOrange _ | .encGreen _ | .tlMark _ | .tlSpace _ | .man0 | .man1 | .pd0 | .pd1 => true
  | .tlClear | .tlLoad _ | .tlAppend _ | .tlRead | .manBit _ | .manNum _ _ | .pdBit _ | .pdBuf _ _
  | .orangeCode | .oPktHeader | .oCodeHeader | .oCodeTail | .oPktTail | .orangePacket
  | .greenBytes | .greenCsum | .bitrev8 _ | .greenReverse | .gPktHeader | .gCodeHeader | .gCodeTail | .gPktTail
  | .greenPacket | .cmdAccept _ | .drainBeat | .send _ | .reset => false

end Sys2Proof
end

