-- ==== Sys2Proof/Config.lean ====
section
/-! DEFINITION. What an implementation fixes (the constant table, the widths, the values `GREEN_TLOW` admits) and the
free values the spec leaves open, each an opaque constant that nothing can evaluate. -/

namespace Sys2Proof.Config

/-- The two bit-encoder schemes (R25, R73). -/
inductive Scheme where
  | manchester
  | pulseDistance
deriving DecidableEq, Repr

/-- One row of the protocol constant table (R25): unit length in microseconds, code width in bits, repetitions, carrier
frequency in kHz, bit scheme. -/
structure ProtoRow where
  unitLen : Nat
  width   : Nat
  reps    : Nat
  freq    : BitVec 8
  scheme  : Scheme
deriving DecidableEq, Repr

/-- The read-only protocol constant table, selected by `PROTO` (R8, R25). -/
def row : Proto → ProtoRow
  | .orange => { unitLen := 992, width := 34, reps := 3, freq := 33, scheme := .manchester }
  | .green  => { unitLen := 560, width := 104, reps := 1, freq := 38, scheme := .pulseDistance }

/-- `UNIT_O` (R8). -/
abbrev unitO : Nat := (row .orange).unitLen

/-- `UNIT_G` (R8). -/
abbrev unitG : Nat := (row .green).unitLen

/-- `AGC_MARK_G`, microseconds (R8, R164). -/
abbrev agcMark : Nat := 9000

/-- `AGC_SPACE_G`, microseconds (R8, R164). -/
abbrev agcSpace : Nat := 4500

/-- `TL_DEPTH`: the number of elements of the Timeline store (R9). -/
abbrev depth : Nat := 256

/-- The largest duration an element of `DUR_W` = 16 bits holds (R9, R108). -/
abbrev durMax : Nat := 65535

/-- `TEMP_MIN` (R23). -/
abbrev tempMin : Nat := 15

/-- `TEMP_MAX` (R23). -/
abbrev tempMax : Nat := 30

/-- The admitted values of `GREEN_TLOW` (R10, R81). -/
inductive GreenTlow where
  /-- `tlow` = T mod 8. -/
  | mod8
  /-- `tlow` = the low 3 bits of T AND 8, what the source reports of the original code. -/
  | srcAnd8
deriving DecidableEq, Repr

/-- `GREEN_TLOW` of this hardware (R10): what `State.reset` is configured with. Either machine of R10 can be
instantiated, for the value a machine runs with is a field of its state (log 14). -/
def greenTlow : GreenTlow := .mod8

/-- `any_3`: the mode field a reserved mode code puts out (R85). A free value: the argument is the draw's index, and
nothing is known of the result. -/
opaque any3 : Nat → BitVec 3

/-- `any_8`: Green byte 1 for a temperature outside 15 to 30 (R86). A free value, as `any3`. -/
opaque any8 : Nat → Byte

/-- The value `REP` is left with by the three repetitions of an Orange packet (R33 gives the range, 0 to `REPS_O` - 1, and
no value). A free value. -/
opaque repLeft : Nat → Fin 3

/-- The value `BITIDX` is left with by a build (R33 gives its range, 0 to 103, and no value). A free value. -/
opaque bitIdxLeft : Nat → Fin 104

/-- `GAP_US`, the host's wait between the two frames of `SEND`, microseconds (R11: OPEN). A free value. -/
opaque gapUs : Nat

end Sys2Proof.Config
end

