-- ==== Sys2Proof/WellFormed.lean ====
section
/-! DEFINITION. The operand ranges of spec/opcode_table.json and of the operations' rules. Reserved mode codes and
temperatures outside 15 to 30 are NOT ill-formed: the block accepts them (R85, R86, R88). -/

namespace Sys2Proof

/-- A literal Timeline operand: 0 to `TL_DEPTH` durations of `DUR_W` bits (R101, R104). -/
def durationsFit (l : List Nat) : Bool :=
  decide (l.length ≤ Config.depth) && l.all (fun d => decide (d ≤ Config.durMax))

/-- The operands are in the ranges the operation's rule gives: `TL_MARK`, `TL_SPACE` 0 to 65535 (R102, R103), `TL_LOAD`,
`TL_APPEND` a Timeline that fits the store (R101, R104), `MAN_NUM` width 0 to 64 (R123), `PD_BUF` width 0 to
8 * len(bytes) (R127). -/
def WellFormed : Instr → Bool
  | .tlMark d | .tlSpace d => decide (d ≤ Config.durMax)
  | .tlLoad l | .tlAppend l => durationsFit l
  | .manNum _ w => decide (w ≤ 64)
  | .pdBuf bytes w => decide (w ≤ 8 * bytes.length)
  | .encOrange _ | .encGreen _ | .man0 | .man1 | .pd0 | .pd1 | .tlClear | .tlRead | .manBit _ | .pdBit _
  | .orangeCode | .oPktHeader | .oCodeHeader | .oCodeTail | .oPktTail | .orangePacket
  | .greenBytes | .greenCsum | .bitrev8 _ | .greenReverse | .gPktHeader | .gCodeHeader | .gCodeTail | .gPktTail
  | .greenPacket | .cmdAccept _ | .drainBeat | .send _ | .reset => true

end Sys2Proof
end

