-- ==== Sys2Proof/Decode.lean ====
section
/-! DEFINITION. Decoding of the three formats that select an operation (R70 to R73), total on any number and rejecting
by name, and the encoder written from the same tables. -/

namespace Sys2Proof

/-- Why a number is no word of a format. Inside its width every word is legal (R88), so width is the only reason. -/
inductive DecodeReject where
  /-- A command word with a bit above bit 16. -/
  | cwTooWide
  /-- A push word with a bit above bit 16. -/
  | pwTooWide
  /-- A bit word with a bit above bit 1. -/
  | bwTooWide
deriving DecidableEq, Repr

/-! ### The command word (R71) -/

/-- `CW[16]`: 0 = Orange, 1 = Green. -/
def cwProto (w : CmdWord) : Proto := if w.getLsbD 16 then .green else .orange

/-- `CW[15:0]`: power 15, mode 14:12, fan 11:10, temp 9:2, swing 1, sleep 0. -/
def cwCfg (w : CmdWord) : Cfg where
  power := w.getLsbD 15
  mode  := w.extractLsb' 12 3
  fan   := w.extractLsb' 10 2
  temp  := w.extractLsb' 2 8
  swing := w.getLsbD 1
  sleep := w.getLsbD 0

/-- The command a protocol selector and a configuration name (R70, R71). -/
def commandOf (p : Proto) (c : Cfg) : Instr :=
  match p with
  | .orange => .encOrange c
  | .green  => .encGreen c

/-- The command a command word selects. -/
def decodeCW (w : CmdWord) : Instr := commandOf (cwProto w) (cwCfg w)

/-- The bit a protocol selector is in `CW[16]`. -/
def protoBit : Proto → Bool
  | .orange => false
  | .green  => true

/-- The concatenation of R71. -/
def encodeCW (p : Proto) (c : Cfg) : CmdWord :=
  BitVec.ofBool (protoBit p) ++ BitVec.ofBool c.power ++ c.mode ++ c.fan ++ c.temp
    ++ BitVec.ofBool c.swing ++ BitVec.ofBool c.sleep

/-! ### The push word (R72) and the bit word (R73) -/

/-- `PW[16]` is the polarity, `PW[15:0]` the duration. -/
def decodePW (w : BitVec 17) : Instr :=
  if w.getLsbD 16 then .tlSpace (w.extractLsb' 0 16).toNat else .tlMark (w.extractLsb' 0 16).toNat

/-- A push word from its polarity bit and duration, for a duration of `PW[15:0]`: 0 to 65535 (R72). -/
def encodePW (space : Bool) (d : Nat) : BitVec 17 := BitVec.ofBool space ++ BitVec.ofNat 16 d

/-- The word of a push. The operand's range ends at 65535 (R102, R103). DEDUCED (log 15): a larger operand has no word, for
the spec gives none and no word of R72 carries its value. -/
def encodePush (space : Bool) (d : Nat) : Option (WordFormat × Nat) :=
  if d ≤ Config.durMax then some (.pw, (encodePW space d).toNat) else none

/-- `BW[1]` is the scheme, `BW[0]` the bit. -/
def decodeBW (w : BitVec 2) : Instr :=
  if w.getLsbD 1 then (if w.getLsbD 0 then .pd1 else .pd0) else (if w.getLsbD 0 then .man1 else .man0)

/-! ### Any number -/

/-- The operation a number selects in a format, or the reason it is no word of it. -/
def decode (f : WordFormat) (w : Nat) : Except DecodeReject Instr :=
  match f with
  | .cw => if w < 131072 then .ok (decodeCW (BitVec.ofNat 17 w)) else .error .cwTooWide
  | .pw => if w < 131072 then .ok (decodePW (BitVec.ofNat 17 w)) else .error .pwTooWide
  | .bw => if w < 4 then .ok (decodeBW (BitVec.ofNat 2 w)) else .error .bwTooWide

/-- The format and word of an encoded operation; a macro-operation has no bit pattern of its own (R91),
and a push of more than 65535 has no word (log 15). -/
def encode : Instr → Option (WordFormat × Nat)
  | .encOrange c => some (.cw, (encodeCW .orange c).toNat)
  | .encGreen c => some (.cw, (encodeCW .green c).toNat)
  | .tlMark d => encodePush false d
  | .tlSpace d => encodePush true d
  | .man0 => some (.bw, 0)
  | .man1 => some (.bw, 1)
  | .pd0 => some (.bw, 2)
  | .pd1 => some (.bw, 3)
  | .tlClear | .tlLoad _ | .tlAppend _ | .tlRead | .manBit _ | .manNum _ _ | .pdBit _ | .pdBuf _ _
  | .orangeCode | .oPktHeader | .oCodeHeader | .oCodeTail | .oPktTail | .orangePacket
  | .greenBytes | .greenCsum | .bitrev8 _ | .greenReverse | .gPktHeader | .gCodeHeader | .gCodeTail | .gPktTail
  | .greenPacket | .cmdAccept _ | .drainBeat | .send _ | .reset => none

/-- The format a word of the opcode table is read in, by the number of bits the table gives it: up to 8 bits it is a bit
word, else a command word, the one 17-bit word a host presents. DESIGN CHOICE (log 2): `CW` and `PW` have the same width
and the same two patterns, and the number alone does not say which it is. -/
def tableFormat (nbits : Nat) : WordFormat := if nbits ≤ 8 then .bw else .cw

/-- The instruction the decoder reads from a word of the opcode table. The ports carry whole words in parallel, so there
is no byte order to lay out (R56). -/
def decodeTableWord (nbits w : Nat) : Option Instr :=
  match decode (tableFormat nbits) w with
  | .ok i => some i
  | .error _ => none

end Sys2Proof
end

