-- ==== Sys2Proof/Machine/State.lean ====
section
/-! DEFINITION. The state of the block as plain data, the reasons a step can stop, and the state after reset. -/

namespace Sys2Proof.Machine

/-- `PHASE` (R32); the 2-bit value 3 is never taken and has no constructor. -/
inductive Phase where
  /-- 0: waits for a command. -/
  | idle
  /-- 1: runs the selected framer. -/
  | build
  /-- 2: plays the finished Timeline out of the output port. -/
  | drain
deriving DecidableEq, Repr

/-- The contents of the Timeline store: pairs (element index, duration in microseconds), in one canonical form
(`Memory.wf`). An index that is not listed has no value (R39; log 5). -/
abbrev Memory := List (Nat × Nat)

/-- What `Memory.wf` says of each listed element: its index is in the store and its duration fits the element (R9, R28). -/
def Memory.cellOk (c : Nat × Nat) : Bool := decide (c.1 < Config.depth) && decide (c.2 ≤ Config.durMax)

/-- The canonical form: indexes strictly rising, every index below `TL_DEPTH`, every duration at most 65535. Nothing
that is listed reads as an unlisted index does, for an unlisted index has no value. -/
def Memory.wf : Memory → Bool
  | [] => true
  | c :: rest => Memory.cellOk c && rest.all (fun e => decide (c.1 < e.1)) && Memory.wf rest

/-- The Timeline store `TL` (R28): the array and the length register. -/
structure TL where
  mem : Memory
  len : Nat
deriving DecidableEq, Repr

/-- The thirteen bytes of the Green buffer (R27). -/
structure GBuf where
  b0  : Byte
  b1  : Byte
  b2  : Byte
  b3  : Byte
  b4  : Byte
  b5  : Byte
  b6  : Byte
  b7  : Byte
  b8  : Byte
  b9  : Byte
  b10 : Byte
  b11 : Byte
  b12 : Byte
deriving DecidableEq, Repr

/-- The input pins at one clock edge (R51, R52); `cw` is the seven command inputs as one word (R71). -/
structure Pins where
  rst      : Bool
  cmdValid : Bool
  cw       : CmdWord
  outReady : Bool
deriving DecidableEq, Repr

/-- What the outside presents at one step (the model's own, log 1). -/
inductive Stimulus where
  /-- A clock edge of the block with these input pins: what the hardware has. -/
  | pins (p : Pins)
  /-- An encoded operation issued by a test bench as a word of a format, as the programs of the spec do. -/
  | word (f : WordFormat) (w : Nat)
  /-- An operation issued by a test bench that has no word (a macro-operation). -/
  | op (i : Instr)
deriving DecidableEq, Repr

/-- The value a value-returning operation gave (the model's own, log 8). -/
inductive Ret where
  /-- No such operation yet. -/
  | none
  /-- `BITREV8` (R162). -/
  | byte (b : Byte)
  /-- `TL_READ` (R105). -/
  | durations (l : List Nat)
deriving DecidableEq, Repr

/-- What has gone out of the block, as the sink sees it (the model's own, log 3). -/
inductive SinkEvent where
  /-- One transfer: `out_data`, `out_last`, `frm_count`, `frm_freq` (R183). -/
  | beat (data : Nat) (last : Bool) (count : Nat) (freq : BitVec 8)
  /-- The host's wait between the two frames of `SEND`, in microseconds (R190, R236). -/
  | gap (us : Nat)
deriving DecidableEq, Repr

/-- The machine's state. The fields down to `bitIdx` are the spec's (R39's table and `RBUF` of R27). `greenTlow` is
the parameter `GREEN_TLOW` the machine is configured with, which no operation writes (R10, R37; log 14). The last four
are the model's own. -/
structure State where
  phase  : Phase
  proto  : Proto
  cfg    : Cfg
  codeO  : BitVec 34
  gbuf   : GBuf
  rbuf   : GBuf
  tl     : TL
  rptr   : Nat
  freq   : BitVec 8
  rep    : Fin 3
  bitIdx : Fin 104
  greenTlow : Config.GreenTlow
  stim   : List Stimulus
  sink   : List SinkEvent
  ret    : Ret
  draws  : Nat
deriving DecidableEq, Repr

/-- Why the machine stops with a fault: conditions that no command reaches. -/
inductive Fault where
  /-- Raised by the Timeline operations when an element would exceed 65535 microseconds. For a merge the spec asks a
  model to stop there (R108). DESIGN CHOICE for a new element or an element of a literal, whose operand is then outside
  the range of R101 to R104 (log 15). Safe: the model stops. -/
  | durationOverflow
  /-- Raised by the Timeline operations when element index 256 would be created (R109). Safe: the spec asks a model to
  stop there. -/
  | timelineFull
  /-- Raised by an operation that reads an element below `TL.len` which nothing has written (log 5). Safe: the model
  stops; no run from reset reaches it. -/
  | unwrittenElement
  /-- Raised by `DRAIN_BEAT` in `DRAIN` with `RPTR` at or above `TL.len` (R28: no operation reads there; log 11). Safe:
  the model stops; no run from reset reaches it. -/
  | drainPastEnd
deriving DecidableEq, Repr

/-- Why a step has no meaning. -/
inductive Refusal where
  /-- Raised by `exec` for an operation that has no meaning yet. Safe. -/
  | notModelled (mnemonic : String)
  /-- Raised by `MAN_NUM` with a width above 64 (R123; 93_implementation_defined.md U6). Safe. -/
  | manNumWidth
  /-- Raised by `PD_BUF` with a width above 8 * len(bytes) (R127; 93_implementation_defined.md U6). Safe. -/
  | pdBufWidth
  /-- Raised by `step` when a test bench presents a number that is no word of its format. Safe. -/
  | badWord (r : DecodeReject)
deriving DecidableEq, Repr

/-- A buffer of zero bytes. -/
def GBuf.zero : GBuf :=
  { b0 := 0, b1 := 0, b2 := 0, b3 := 0, b4 := 0, b5 := 0, b6 := 0, b7 := 0, b8 := 0, b9 := 0, b10 := 0, b11 := 0,
    b12 := 0 }

/-- The configuration of zeros. -/
def zeroCfg : Cfg := { power := false, mode := 0, fan := 0, temp := 0, swing := false, sleep := false }

/-- The machine after reset (R39): `PHASE` IDLE, `TL.len`, `RPTR`, `REP`, `BITIDX` zero. DESIGN CHOICE (log 4): the
registers R39 leaves unspecified hold zeros. No element of the store has a value (log 5). `GREEN_TLOW` is this
hardware's (R10). -/
def State.reset : State where
  phase  := .idle
  proto  := .orange
  cfg    := zeroCfg
  codeO  := 0
  gbuf   := GBuf.zero
  rbuf   := GBuf.zero
  tl     := { mem := [], len := 0 }
  rptr   := 0
  freq   := 0
  rep    := 0
  bitIdx := 0
  greenTlow := Config.greenTlow
  stim   := []
  sink   := []
  ret    := .none
  draws  := 0

end Sys2Proof.Machine
end

