-- ==== Sys2Proof/Machine/Operands.lean ====
section
/-! DEFINITION. Value assembly: the field values of the two wire layouts from a configuration (R74 to R82, R85, R86), the
bits a loop looks at, and the byte operations. -/

namespace Sys2Proof.Machine

/-! ### The Orange code word -/

/-- Orange mode code by input code (R75); a reserved code gives the draw (R85). -/
def orangeMode (m draw : BitVec 3) : BitVec 3 :=
  match m.toNat with
  | 0 => 0b001
  | 1 => 0b010
  | 2 => 0b101
  | 3 => 0b100
  | 4 => 0b011
  | _ => draw

/-- Orange fan code by input code (R76). -/
def orangeFan (f : BitVec 2) : BitVec 2 :=
  match f.toNat with
  | 0 => 0b00
  | 1 => 0b01
  | 2 => 0b10
  | _ => 0b11

/-- `temp15` = (T - 15) mod 16 on integers, the remainder not negative (R77). -/
def temp15 (t : BitVec 8) : BitVec 4 := BitVec.ofNat 4 (((t.toNat : Int) - 15) % 16).toNat

/-- `OCODE` (R74, R140): the 34-bit code word, `draw` standing for `any_3`. -/
def orangeWord (c : Cfg) (draw : BitVec 3) : BitVec 34 :=
  BitVec.ofBool c.power ++ orangeMode c.mode draw ++ orangeFan c.fan ++ 0#2 ++ BitVec.ofBool c.swing ++ 0#2
    ++ temp15 c.temp ++ BitVec.ofBool c.sleep ++ 0#16 ++ 1#1 ++ 0#1

/-! ### The Green buffer -/

/-- Green mode code by input code (R79); a reserved code gives the draw (R85). -/
def greenMode (m draw : BitVec 3) : BitVec 3 :=
  match m.toNat with
  | 0 => 0b001
  | 1 => 0b100
  | 2 => 0b110
  | 3 => 0b010
  | 4 => 0b000
  | _ => draw

/-- Green fan code by input code (R80). -/
def greenFan (f : BitVec 2) : BitVec 3 :=
  match f.toNat with
  | 0 => 0b011
  | 1 => 0b010
  | 2 => 0b001
  | _ => 0b101

/-- `nvswing`: the inverse of the swing input, three times (R82). -/
def nvswing (swing : Bool) : BitVec 3 := if swing then 0b000 else 0b111

/-- `thigh` = (T div 8) - 1, for T in 15 to 30 (R81). -/
def thigh (t : BitVec 8) : BitVec 2 := BitVec.ofNat 2 (t.toNat / 8 - 1)

/-- `tlow` for either value of `GREEN_TLOW` (R10, R81). -/
def tlow (k : Config.GreenTlow) (t : BitVec 8) : BitVec 3 :=
  match k with
  | .mod8    => BitVec.ofNat 3 (t.toNat % 8)
  | .srcAnd8 => BitVec.ofNat 3 (t.toNat &&& 8)

/-- The valid temperatures, 15 to 30 (R23). -/
def tempValid (t : BitVec 8) : Bool := decide (Config.tempMin ≤ t.toNat) && decide (t.toNat ≤ Config.tempMax)

/-- `GBUF[1]` (R78, R81, R86): the temperature and swing fields, or the draw for a temperature outside 15 to 30. -/
def greenByte1 (k : Config.GreenTlow) (c : Cfg) (draw : Byte) : Byte :=
  if tempValid c.temp then thigh c.temp ++ tlow k c.temp ++ nvswing c.swing else draw

/-- `GBUF[0..11]` from a configuration (R78, R160), byte 12 kept from `old`; `m3` and `b1` stand for `any_3` and `any_8`. -/
def greenFill (k : Config.GreenTlow) (c : Cfg) (m3 : BitVec 3) (b1 : Byte) (old : GBuf) : GBuf where
  b0  := 0xC3
  b1  := greenByte1 k c b1
  b2  := 0xE0
  b3  := 0x00
  b4  := greenFan c.fan ++ 0#5
  b5  := 0x00
  b6  := greenMode c.mode m3 ++ 0#2 ++ BitVec.ofBool c.sleep ++ 0#2
  b7  := 0x00
  b8  := 0x00
  b9  := if c.power then 0x20 else 0x00
  b10 := 0x00
  b11 := 0x05
  b12 := old.b12

/-- The sum of bytes 0 to 11, truncated to 8 bits (R161). -/
def checksum (g : GBuf) : Byte :=
  g.b0 + g.b1 + g.b2 + g.b3 + g.b4 + g.b5 + g.b6 + g.b7 + g.b8 + g.b9 + g.b10 + g.b11

/-- `BITREV8`: bit i of the result is bit 7 - i of the operand (R162). -/
def bitRev8 (b : Byte) : Byte :=
  BitVec.ofBool (b.getLsbD 0) ++ BitVec.ofBool (b.getLsbD 1) ++ BitVec.ofBool (b.getLsbD 2)
    ++ BitVec.ofBool (b.getLsbD 3) ++ BitVec.ofBool (b.getLsbD 4) ++ BitVec.ofBool (b.getLsbD 5)
    ++ BitVec.ofBool (b.getLsbD 6) ++ BitVec.ofBool (b.getLsbD 7)

/-- A byte operation on each of the thirteen bytes. -/
def GBuf.map (f : Byte → Byte) (g : GBuf) : GBuf :=
  { b0 := f g.b0, b1 := f g.b1, b2 := f g.b2, b3 := f g.b3, b4 := f g.b4, b5 := f g.b5, b6 := f g.b6, b7 := f g.b7,
    b8 := f g.b8, b9 := f g.b9, b10 := f g.b10, b11 := f g.b11, b12 := f g.b12 }

/-- The bytes in index order. -/
def GBuf.toList (g : GBuf) : List Byte :=
  [g.b0, g.b1, g.b2, g.b3, g.b4, g.b5, g.b6, g.b7, g.b8, g.b9, g.b10, g.b11, g.b12]

/-! ### The bits the iterators look at -/

/-- Bits w-1 down to 0 of `v`, in that order (R123). -/
def msbFirst (v : Nat) : Nat → List Bool
  | 0 => []
  | w + 1 => v.testBit w :: msbFirst v w

/-- Bit `j` of the logical stream of a byte list: byte j div 8, bit 7 - (j mod 8) (R127). -/
def streamBit (bytes : List Byte) (j : Nat) : Bool := (bytes.getD (j / 8) 0).getLsbD (7 - j % 8)

/-- The first `w` bits of the logical stream (R127). -/
def stream (bytes : List Byte) (w : Nat) : List Bool := (List.range w).map (streamBit bytes)

end Sys2Proof.Machine
end

