-- ==== Sys2Proof/Machine/Flags.lean ====
section
/-! DEFINITION. What the spec derives from the state: the current polarity (R29), `BUSY` (R35), and the output signals of
the two ports (R51, R52). The block has no condition codes and no flag that an operation sets (R35). -/

namespace Sys2Proof.Machine

/-- Mark, the "on" portion, or space, the "off" portion (R29). -/
inductive Polarity where
  | mark
  | space
deriving DecidableEq, Repr

/-- The polarity of element `i` is its index parity (R29). -/
def elementPolarity (i : Nat) : Polarity := if i % 2 = 0 then .mark else .space

/-- The current polarity of a Timeline is that of its last element; an empty one has none (R29). -/
def TL.polarity (tl : TL) : Option Polarity := if tl.len = 0 then none else some (elementPolarity (tl.len - 1))

/-- `BUSY` (R35). -/
def busy (s : State) : Bool := decide (s.phase ≠ .idle)

/-- `cmd_ready` (R51). -/
def cmdReady (s : State) : Bool := decide (s.phase = .idle)

/-- `out_valid` (R52). -/
def outValid (s : State) : Bool := decide (s.phase = .drain)

end Sys2Proof.Machine
end

