-- ==== Sys2Proof/Machine/Ops.lean ====
section
/-! DEFINITION. The shared operations: the element store, the Timeline unit, the outcome of an operation, the output
signals, and the register writes that several operations share. The block takes no exception and returns from none
(R200, R204, R205), so there is no such operation here. -/

namespace Sys2Proof.Machine

/-! ### The element store (R28, R50) -/

/-- `MemRead(i, 1)`: the element at an index, or none where nothing has been written (log 5). -/
def Memory.read : Memory → Nat → Option Nat
  | [], _ => none
  | (a, v) :: rest, i => if a = i then some v else Memory.read rest i

/-- `MemWrite(i, 1, v)`, keeping the indexes strictly rising. -/
def Memory.write : Memory → Nat → Nat → Memory
  | [], i, v => [(i, v)]
  | (a, x) :: rest, i, v =>
    if i < a then (i, v) :: (a, x) :: rest
    else if i = a then (i, v) :: rest
    else (a, x) :: Memory.write rest i v

/-- `MemWrite` of a list of elements from an index on. -/
def Memory.writeFrom (m : Memory) (i : Nat) : List Nat → Memory
  | [] => m
  | d :: rest => Memory.writeFrom (Memory.write m i d) (i + 1) rest

/-! ### The Timeline unit (40_timeline.md) -/

/-- A new element at the end. Faults where index 256 would be created (R109). DESIGN CHOICE (log 15): also where the
operand alone is above 65535, outside the range of R102 and R103, for which the spec gives no effect when nothing merges. -/
def TL.push (d : Nat) (tl : TL) : Except Fault TL :=
  if Config.depth ≤ tl.len then .error .timelineFull
  else if Config.durMax < d then .error .durationOverflow
  else .ok { mem := Memory.write tl.mem tl.len d, len := tl.len + 1 }

/-- The merge: the last element grows by `d`, exactly; a sum above 65535 faults (R58, R108). -/
def TL.extend (d : Nat) (tl : TL) : Except Fault TL :=
  match Memory.read tl.mem (tl.len - 1) with
  | none => .error .unwrittenElement
  | some v =>
    if Config.durMax < v + d then .error .durationOverflow
    else .ok { tl with mem := Memory.write tl.mem (tl.len - 1) (v + d) }

/-- `TL_CLEAR` (R100): the elements stay and have no meaning. -/
def TL.clear (tl : TL) : TL := { tl with len := 0 }

/-- `TL_MARK d` (R102). -/
def TL.mark (d : Nat) (tl : TL) : Except Fault TL :=
  if tl.len = 0 then TL.push d tl
  else if tl.len % 2 = 1 then TL.extend d tl
  else TL.push d tl

/-- `TL_SPACE d` (R103): on an empty Timeline a zero-length mark comes first. -/
def TL.space (d : Nat) (tl : TL) : Except Fault TL :=
  if tl.len = 0 then (TL.push 0 tl).bind (TL.push d)
  else if tl.len % 2 = 0 then TL.extend d tl
  else TL.push d tl

/-- `TL_LOAD seq` (R101): verbatim. A literal of more than 256 elements faults (R109). DESIGN CHOICE (log 15): so does one with
an element above 65535, which is no literal of R101 and no merge of R108. -/
def TL.load (seq : List Nat) (tl : TL) : Except Fault TL :=
  if Config.depth < seq.length then .error .timelineFull
  else if seq.any (fun d => decide (Config.durMax < d)) then .error .durationOverflow
  else .ok { mem := Memory.writeFrom tl.mem 0 seq, len := seq.length }

/-- Durations replayed in order with alternating polarity, a mark first if `isMark` (R104). -/
def TL.replay : List Nat → Bool → TL → Except Fault TL
  | [], _, tl => .ok tl
  | d :: rest, true, tl => (TL.mark d tl).bind (TL.replay rest false)
  | d :: rest, false, tl => (TL.space d tl).bind (TL.replay rest true)

/-- `TL_APPEND other` (R104): a leading element of length zero is dropped, the rest is replayed. -/
def TL.append (other : List Nat) (tl : TL) : Except Fault TL :=
  match other with
  | 0 :: rest => TL.replay rest false tl
  | l => TL.replay l true tl

/-- The elements from index `i` on, `n` of them. -/
def TL.readFrom (m : Memory) (i : Nat) : Nat → Except Fault (List Nat)
  | 0 => .ok []
  | n + 1 =>
    match Memory.read m i with
    | none => .error .unwrittenElement
    | some d => (TL.readFrom m (i + 1) n).map (fun l => d :: l)

/-- `TL_READ` (R105). -/
def TL.read (tl : TL) : Except Fault (List Nat) := TL.readFrom tl.mem 0 tl.len

/-! ### The outcome of an operation -/

/-- The outcome of an operation whose only way to stop is a fault. -/
def outcome (r : Except Fault State) : Host.Outcome State Fault Refusal :=
  match r with
  | .ok s => .next s
  | .error f => .fault f

/-- The same state with another Timeline. -/
def State.withTL (s : State) (tl : TL) : State := { s with tl := tl }

/-- A Timeline operation applied to the state's Timeline; nothing else changes. -/
def State.onTL (f : TL → Except Fault TL) (s : State) : Except Fault State := (f s.tl).map s.withTL

/-! ### Register writes that several operations share -/

/-- The latches of command accept (R180): `PROTO` and all six fields of `CFG` at once. -/
def State.latch (p : Proto) (c : Cfg) (s : State) : State := { s with proto := p, cfg := c }

/-- One more draw of a free value has been made (log 6). -/
def State.tick (s : State) : State := { s with draws := s.draws + 1 }

/-- What a packet leaves in `REP`: 0 to `REPS` - 1 (R33), so 0 for Green, and for Orange a value the spec does not give
(log 7). -/
def repAfter (p : Proto) (draw : Nat) : Fin 3 :=
  match p with
  | .orange => Config.repLeft draw
  | .green  => 0

/-- The working registers are left by a packet with values in their ranges that the spec does not give (R33; log 7). -/
def State.leaveLoops (p : Proto) (s : State) : State :=
  State.tick { s with rep := repAfter p s.draws, bitIdx := Config.bitIdxLeft s.draws }

/-- The end of a build (R181, R182): `FREQ`, `RPTR` and `PHASE`. -/
def State.finishBuild (p : Proto) (s : State) : State :=
  { s with freq := (Config.row p).freq, rptr := 0, phase := .drain }

/-! ### The output port (R52) -/

/-- `out_data`: no value while `out_valid` = 0 (log 10). -/
def outData (s : State) : Option Nat := if outValid s then Memory.read s.tl.mem s.rptr else none

/-- `out_last`: no value while `out_valid` = 0 (log 10). -/
def outLast (s : State) : Option Bool := if outValid s then some (decide (s.rptr + 1 = s.tl.len)) else none

/-- `frm_count`: no value while `out_valid` = 0 (log 10). -/
def frmCount (s : State) : Option Nat := if outValid s then some s.tl.len else none

/-- `frm_freq`: no value while `out_valid` = 0 (log 10). -/
def frmFreq (s : State) : Option (BitVec 8) := if outValid s then some s.freq else none

end Sys2Proof.Machine
end

