-- ==== Sys2Proof/Machine/Timeline.lean ====
section
/-! DEFINITION. The Timeline unit's operations (40_timeline.md). -/

namespace Sys2Proof.Machine

/-- `TL_CLEAR` (R100). -/
def execTlClear (s : State) : Host.Outcome State Fault Refusal := .next (s.withTL s.tl.clear)

/-- `TL_LOAD seq` (R101). -/
def execTlLoad (seq : List Nat) (s : State) : Host.Outcome State Fault Refusal := outcome (s.onTL (TL.load seq))

/-- `TL_MARK d` (R102). -/
def execTlMark (d : Nat) (s : State) : Host.Outcome State Fault Refusal := outcome (s.onTL (TL.mark d))

/-- `TL_SPACE d` (R103). -/
def execTlSpace (d : Nat) (s : State) : Host.Outcome State Fault Refusal := outcome (s.onTL (TL.space d))

/-- `TL_APPEND other` (R104). -/
def execTlAppend (other : List Nat) (s : State) : Host.Outcome State Fault Refusal :=
  outcome (s.onTL (TL.append other))

/-- `TL_READ` (R105): the result goes to `ret` (log 8), no state of the block changes. -/
def execTlRead (s : State) : Host.Outcome State Fault Refusal :=
  match TL.read s.tl with
  | .ok l => .next { s with ret := .durations l }
  | .error f => .fault f

end Sys2Proof.Machine
end

