-- ==== Sys2Proof/Machine/BitEncoder.lean ====
section
/-! DEFINITION. The bit encoder's operations (41_bit_encoders.md). The encoder has no state of its own: it issues marks
and spaces to the Timeline. The shared operations take the unit length `u`, as the rules do; the operations run with 992
for Manchester and 560 for pulse-distance (R25, R73). -/

namespace Sys2Proof.Machine

/-- Manchester bit 0: one unit mark, one unit space (R120). -/
def TL.man0 (u : Nat) (tl : TL) : Except Fault TL := (TL.mark u tl).bind (TL.space u)

/-- Manchester bit 1: one unit space, one unit mark (R121). -/
def TL.man1 (u : Nat) (tl : TL) : Except Fault TL := (TL.space u tl).bind (TL.mark u)

/-- One Manchester bit (R122). -/
def TL.manBit (u : Nat) (b : Bool) (tl : TL) : Except Fault TL := if b then TL.man1 u tl else TL.man0 u tl

/-- Manchester bits in order. -/
def TL.manBits (u : Nat) : List Bool → TL → Except Fault TL
  | [], tl => .ok tl
  | b :: rest, tl => (TL.manBit u b tl).bind (TL.manBits u rest)

/-- `w` bits of `v`, most significant first (R123). -/
def TL.manNum (u v w : Nat) (tl : TL) : Except Fault TL := TL.manBits u (msbFirst v w) tl

/-- Pulse-distance bit 0: one unit mark, one unit space (R124). -/
def TL.pd0 (u : Nat) (tl : TL) : Except Fault TL := (TL.mark u tl).bind (TL.space u)

/-- Pulse-distance bit 1: one unit mark, three units space (R125). -/
def TL.pd1 (u : Nat) (tl : TL) : Except Fault TL := (TL.mark u tl).bind (TL.space (3 * u))

/-- One pulse-distance bit (R126). -/
def TL.pdBit (u : Nat) (b : Bool) (tl : TL) : Except Fault TL := if b then TL.pd1 u tl else TL.pd0 u tl

/-- Pulse-distance bits in order. -/
def TL.pdBits (u : Nat) : List Bool → TL → Except Fault TL
  | [], tl => .ok tl
  | b :: rest, tl => (TL.pdBit u b tl).bind (TL.pdBits u rest)

/-- `w` bits of a byte list's logical stream (R127), for `w` at most 8 * len(bytes). -/
def TL.pdBuf (u : Nat) (bytes : List Byte) (w : Nat) (tl : TL) : Except Fault TL := TL.pdBits u (stream bytes w) tl

/-- `MAN0` (R120). -/
def execMan0 (s : State) : Host.Outcome State Fault Refusal := outcome (s.onTL (TL.man0 Config.unitO))

/-- `MAN1` (R121). -/
def execMan1 (s : State) : Host.Outcome State Fault Refusal := outcome (s.onTL (TL.man1 Config.unitO))

/-- `MAN_BIT b` (R122). -/
def execManBit (b : Bool) (s : State) : Host.Outcome State Fault Refusal := outcome (s.onTL (TL.manBit Config.unitO b))

/-- `MAN_NUM v, w` (R123); a width above 64 is refused (93_implementation_defined.md U6). -/
def execManNum (v w : Nat) (s : State) : Host.Outcome State Fault Refusal :=
  if 64 < w then .refused .manNumWidth else outcome (s.onTL (TL.manNum Config.unitO v w))

/-- `PD0` (R124). -/
def execPd0 (s : State) : Host.Outcome State Fault Refusal := outcome (s.onTL (TL.pd0 Config.unitG))

/-- `PD1` (R125). -/
def execPd1 (s : State) : Host.Outcome State Fault Refusal := outcome (s.onTL (TL.pd1 Config.unitG))

/-- `PD_BIT b` (R126). -/
def execPdBit (b : Bool) (s : State) : Host.Outcome State Fault Refusal := outcome (s.onTL (TL.pdBit Config.unitG b))

/-- `PD_BUF bytes, w` (R127); a width above 8 * len(bytes) is refused (93_implementation_defined.md U6). -/
def execPdBuf (bytes : List Byte) (w : Nat) (s : State) : Host.Outcome State Fault Refusal :=
  if 8 * bytes.length < w then .refused .pdBufWidth else outcome (s.onTL (TL.pdBuf Config.unitG bytes w))

end Sys2Proof.Machine
end

