-- ==== Sys2Proof/Machine/Orange.lean ====
section
/-! DEFINITION. The Orange framer's operations (42_orange_framer.md). -/

namespace Sys2Proof.Machine

/-- `O_PKT_HEADER` on a Timeline: empty (R141). -/
def TL.oPktHeader (tl : TL) : Except Fault TL := .ok tl

/-- `O_CODE_HEADER` on a Timeline: one mark and one space of 3 units (R142). -/
def TL.oCodeHeader (tl : TL) : Except Fault TL :=
  (TL.mark (3 * Config.unitO) tl).bind (TL.space (3 * Config.unitO))

/-- `O_CODE_TAIL` on a Timeline: empty (R143). -/
def TL.oCodeTail (tl : TL) : Except Fault TL := .ok tl

/-- `O_PKT_TAIL` on a Timeline: one mark of 4 units (R144). -/
def TL.oPktTail (tl : TL) : Except Fault TL := TL.mark (4 * Config.unitO) tl

/-- One repetition: code header, the 34 code bits, code tail (R145). -/
def TL.oBlock (code : BitVec 34) (tl : TL) : Except Fault TL :=
  ((TL.oCodeHeader tl).bind (TL.manNum Config.unitO code.toNat (Config.row .orange).width)).bind TL.oCodeTail

/-- `n` repetitions (R145). -/
def TL.oBlocks (code : BitVec 34) : Nat → TL → Except Fault TL
  | 0, tl => .ok tl
  | n + 1, tl => (TL.oBlock code tl).bind (TL.oBlocks code n)

/-- The whole packet (R145): packet header, three repetitions, packet tail. -/
def TL.orangePacket (code : BitVec 34) (tl : TL) : Except Fault TL :=
  ((TL.oPktHeader tl).bind (TL.oBlocks code (Config.row .orange).reps)).bind TL.oPktTail

/-- `ORANGE_CODE` on the state (R140): `CODE_O` from `CFG`; `any_3` is drawn once (R85). -/
def State.assembleOrange (s : State) : State :=
  State.tick { s with codeO := orangeWord s.cfg (Config.any3 s.draws) }

/-- `ORANGE_PACKET` on the state (R145). -/
def State.packOrange (s : State) : Except Fault State := (s.onTL (TL.orangePacket s.codeO)).map (State.leaveLoops .orange)

/-- `ORANGE_CODE` (R140). -/
def execOrangeCode (s : State) : Host.Outcome State Fault Refusal := .next s.assembleOrange

/-- `O_PKT_HEADER` (R141). -/
def execOPktHeader (s : State) : Host.Outcome State Fault Refusal := outcome (s.onTL TL.oPktHeader)

/-- `O_CODE_HEADER` (R142). -/
def execOCodeHeader (s : State) : Host.Outcome State Fault Refusal := outcome (s.onTL TL.oCodeHeader)

/-- `O_CODE_TAIL` (R143). -/
def execOCodeTail (s : State) : Host.Outcome State Fault Refusal := outcome (s.onTL TL.oCodeTail)

/-- `O_PKT_TAIL` (R144). -/
def execOPktTail (s : State) : Host.Outcome State Fault Refusal := outcome (s.onTL TL.oPktTail)

/-- `ORANGE_PACKET` (R145). -/
def execOrangePacket (s : State) : Host.Outcome State Fault Refusal := outcome s.packOrange

end Sys2Proof.Machine
end

