-- ==== Sys2Proof/Machine/Green.lean ====
section
/-! DEFINITION. The Green framer's operations (43_green_framer.md). -/

namespace Sys2Proof.Machine

/-- `GREEN_BYTES` on the state (R160): `GBUF[0..11]` from `CFG`, by the `GREEN_TLOW` of this machine (R10); `any_3` and `any_8` are drawn once (R85, R86). -/
def State.assembleGreen (s : State) : State :=
  State.tick
    { s with gbuf := greenFill s.greenTlow s.cfg (Config.any3 s.draws) (Config.any8 s.draws) s.gbuf }

/-- `GREEN_CSUM` on the state (R161). -/
def State.sumGreen (s : State) : State := { s with gbuf := { s.gbuf with b12 := checksum s.gbuf } }

/-- `GREEN_REVERSE` on the state (R163): `RBUF` holds every byte of `GBUF` with its bits reversed. -/
def State.reverseGreen (s : State) : State := { s with rbuf := s.gbuf.map bitRev8 }

/-- `G_PKT_HEADER` on a Timeline: 9000 mark, 4500 space, raw microseconds (R164). -/
def TL.gPktHeader (tl : TL) : Except Fault TL := (TL.mark Config.agcMark tl).bind (TL.space Config.agcSpace)

/-- `G_CODE_HEADER` on a Timeline: empty (R165). -/
def TL.gCodeHeader (tl : TL) : Except Fault TL := .ok tl

/-- `G_CODE_TAIL` on a Timeline: empty (R165). -/
def TL.gCodeTail (tl : TL) : Except Fault TL := .ok tl

/-- `G_PKT_TAIL` on a Timeline: one mark of 1 unit (R166). -/
def TL.gPktTail (tl : TL) : Except Fault TL := TL.mark Config.unitG tl

/-- One repetition: code header, the 104 code bits, code tail (R167). -/
def TL.gBlock (r : GBuf) (tl : TL) : Except Fault TL :=
  ((TL.gCodeHeader tl).bind (TL.pdBuf Config.unitG r.toList (Config.row .green).width)).bind TL.gCodeTail

/-- `n` repetitions (R167). -/
def TL.gBlocks (r : GBuf) : Nat → TL → Except Fault TL
  | 0, tl => .ok tl
  | n + 1, tl => (TL.gBlock r tl).bind (TL.gBlocks r n)

/-- The whole packet (R167): packet header, one repetition, packet tail. -/
def TL.greenPacket (r : GBuf) (tl : TL) : Except Fault TL :=
  ((TL.gPktHeader tl).bind (TL.gBlocks r (Config.row .green).reps)).bind TL.gPktTail

/-- `GREEN_PACKET` on the state (R167). -/
def State.packGreen (s : State) : Except Fault State := (s.onTL (TL.greenPacket s.rbuf)).map (State.leaveLoops .green)

/-- `GREEN_BYTES` (R160). -/
def execGreenBytes (s : State) : Host.Outcome State Fault Refusal := .next s.assembleGreen

/-- `GREEN_CSUM` (R161). -/
def execGreenCsum (s : State) : Host.Outcome State Fault Refusal := .next s.sumGreen

/-- `BITREV8 b` (R162): the result goes to `ret` (log 8), no state of the block changes. -/
def execBitrev8 (b : Byte) (s : State) : Host.Outcome State Fault Refusal := .next { s with ret := .byte (bitRev8 b) }

/-- `GREEN_REVERSE` (R163). -/
def execGreenReverse (s : State) : Host.Outcome State Fault Refusal := .next s.reverseGreen

/-- `G_PKT_HEADER` (R164). -/
def execGPktHeader (s : State) : Host.Outcome State Fault Refusal := outcome (s.onTL TL.gPktHeader)

/-- `G_CODE_HEADER` (R165). -/
def execGCodeHeader (s : State) : Host.Outcome State Fault Refusal := outcome (s.onTL TL.gCodeHeader)

/-- `G_CODE_TAIL` (R165). -/
def execGCodeTail (s : State) : Host.Outcome State Fault Refusal := outcome (s.onTL TL.gCodeTail)

/-- `G_PKT_TAIL` (R166). -/
def execGPktTail (s : State) : Host.Outcome State Fault Refusal := outcome (s.onTL TL.gPktTail)

/-- `GREEN_PACKET` (R167). -/
def execGreenPacket (s : State) : Host.Outcome State Fault Refusal := outcome s.packGreen

end Sys2Proof.Machine
end

