-- ==== Sys2Proof/Machine/Command.lean ====
section
/-! DEFINITION. The operations at the block's boundary: command accept, the two commands, the drain, the host sequence
`SEND`, and reset (44_command_sequencer.md, 70_reset_and_hazards.md R230). -/

namespace Sys2Proof.Machine

/-- Command accept in `IDLE` (R180): the latches, then `PHASE` BUILD. -/
def State.accept (p : Proto) (c : Cfg) (s : State) : State := { s.latch p c with phase := .build }

/-- The `BUILD` step of an Orange command, one atomic step (R181). -/
def State.buildOrange (s : State) : Except Fault State :=
  ((s.withTL s.tl.clear).assembleOrange.packOrange).map (State.finishBuild .orange)

/-- The `BUILD` step of a Green command, one atomic step (R182). -/
def State.buildGreen (s : State) : Except Fault State :=
  ((s.withTL s.tl.clear).assembleGreen.sumGreen.reverseGreen.packGreen).map (State.finishBuild .green)

/-- The `BUILD` step of the latched protocol. -/
def State.build (p : Proto) (s : State) : Except Fault State :=
  match p with
  | .orange => s.buildOrange
  | .green  => s.buildGreen

/-- A command up to the point where its frame is offered (R180 to R182). From `IDLE`: accept and build. In `BUILD`, when
the latched command is this one: build. Otherwise the block is busy with another command and this one waits at the port
with none of its effect (R180; log 11). -/
def State.command (p : Proto) (c : Cfg) (s : State) : Except Fault State :=
  match s.phase with
  | .idle  => (s.accept p c).build p
  | .build => if s.proto = p ∧ s.cfg = c then s.build p else .ok s
  | .drain => .ok s

/-- One transfer (R183, R185): the sink receives the element and the sidebands, `RPTR` counts up, and the last transfer
returns the sequencer to `IDLE`. Outside `DRAIN` `out_valid` is 0 and nothing is transferred (R52; log 11). -/
def State.beat (s : State) : Except Fault State :=
  match s.phase with
  | .idle  => .ok s
  | .build => .ok s
  | .drain =>
    if s.tl.len ≤ s.rptr then .error .drainPastEnd
    else match Memory.read s.tl.mem s.rptr with
      | none => .error .unwrittenElement
      | some d =>
        .ok { s with
          sink  := s.sink ++ [.beat d (decide (s.rptr + 1 = s.tl.len)) s.tl.len s.freq]
          rptr  := s.rptr + 1
          phase := if s.rptr + 1 = s.tl.len then .idle else .drain }

/-- `n` transfers: a sink that takes every element (R238). -/
def State.beats : Nat → State → Except Fault State
  | 0, s => .ok s
  | n + 1, s => s.beat.bind (State.beats n)

/-- The host's wait between two frames: outside the block, seen only in the order of what the sink gets (R190, R236). -/
def State.hostWait (us : Nat) (s : State) : State := { s with sink := s.sink ++ [.gap us] }

/-- A command from accept to its last transfer, as the host's blocking call sees it (R185). -/
def State.transmit (p : Proto) (c : Cfg) (s : State) : Except Fault State :=
  (s.command p c).bind fun t => State.beats t.tl.len t

/-- The host's two-frame sequence (R190): Orange, the wait `GAP_US`, Green, with one configuration. Called while the
block is busy it waits at the command port, with nothing done yet (R61, R180). -/
def State.sendBoth (c : Cfg) (s : State) : Except Fault State :=
  match s.phase with
  | .idle  => (s.transmit .orange c).bind fun t => (t.hostWait Config.gapUs).transmit .green c
  | .build => .ok s
  | .drain => .ok s

/-- Reset (R230): five registers are written, nothing else. -/
def State.resetPin (s : State) : State :=
  { s with phase := .idle, tl := s.tl.clear, rptr := 0, rep := 0, bitIdx := 0 }

/-- `CMD_ACCEPT` (R180); outside `IDLE` the inputs are ignored. -/
def execCmdAccept (cw : CmdWord) (s : State) : Host.Outcome State Fault Refusal :=
  match s.phase with
  | .idle  => .next (s.accept (cwProto cw) (cwCfg cw))
  | .build => .next s
  | .drain => .next s

/-- `ENC_ORANGE cfg` (R181). -/
def execEncOrange (c : Cfg) (s : State) : Host.Outcome State Fault Refusal := outcome (s.command .orange c)

/-- `ENC_GREEN cfg` (R182). -/
def execEncGreen (c : Cfg) (s : State) : Host.Outcome State Fault Refusal := outcome (s.command .green c)

/-- `DRAIN_BEAT` (R183, R185). -/
def execDrainBeat (s : State) : Host.Outcome State Fault Refusal := outcome s.beat

/-- `SEND cfg` (R190). -/
def execSend (c : Cfg) (s : State) : Host.Outcome State Fault Refusal := outcome (s.sendBoth c)

/-- `RESET` (R230). -/
def execReset (s : State) : Host.Outcome State Fault Refusal := .next s.resetPin

end Sys2Proof.Machine
end

