-- ==== Sys2Proof/Machine/Edge.lean ====
section
/-! DEFINITION. Which operation a step runs: the priorities at a clock edge (R203), the command the sequencer has latched,
and the operations a test bench issues (log 1). -/

namespace Sys2Proof.Machine

/-- The pins of an edge at which the outside asks for nothing. -/
def quietPins : Pins := { rst := false, cmdValid := false, cw := 0, outReady := false }

/-- What a step fetches. -/
inductive Fetched where
  /-- No operation: the block stays as it is (R212, R238). -/
  | wait
  /-- An operation to run. -/
  | run (i : Instr)
  /-- A stimulus the model does not take. -/
  | reject (r : Refusal)
deriving DecidableEq, Repr

/-- The command in the latches `PROTO` and `CFG`: what the `BUILD` step runs (R181, R182). -/
def latchedCommand (s : State) : Instr := commandOf s.proto s.cfg

/-- What one clock edge does, in priority order (R203): reset; in `DRAIN` a transfer if `out_ready`; in `BUILD` the
build; in `IDLE` an accept if `cmd_valid`. -/
def edgeFetch (p : Pins) (s : State) : Fetched :=
  if p.rst then .run .reset
  else match s.phase with
    | .drain => if p.outReady then .run .drainBeat else .wait
    | .build => .run (latchedCommand s)
    | .idle  => if p.cmdValid then .run (.cmdAccept p.cw) else .wait

/-- The operations a test bench runs while a frame is drained: a transfer, reset, an offered command (which waits at the
port), the operations that only give a value or form the value `RBUF` (R27), and the empty headers and tails (R141, R143,
R165). The others write `TL`, `CODE_O` or `GBUF`, which no operation does in `DRAIN` (R34, R38). -/
def runsInDrain : Instr → Bool
  | .encOrange _ | .encGreen _ | .cmdAccept _ | .send _ | .drainBeat | .reset | .tlRead | .bitrev8 _ | .greenReverse
  | .oPktHeader | .oCodeTail | .gCodeHeader | .gCodeTail => true
  | .tlMark _ | .tlSpace _ | .man0 | .man1 | .pd0 | .pd1 | .tlClear | .tlLoad _ | .tlAppend _
  | .manBit _ | .manNum _ _ | .pdBit _ | .pdBuf _ _
  | .orangeCode | .oCodeHeader | .oPktTail | .orangePacket
  | .greenBytes | .greenCsum | .gPktHeader | .gPktTail | .greenPacket => false

/-- A test bench issues an operation: in `IDLE` and `BUILD` any runs. In `DRAIN` the frame and the code registers are held
(R34, R38, R235), so an operation that would write them leaves the block as it is. DEDUCED (log 1): the spec's units hear
only the framer then; that a bench's operation is taken with no effect is the model's reading. -/
def benchFetch (i : Instr) (s : State) : Fetched :=
  if outValid s && !runsInDrain i then .wait else .run i

/-- What the next step runs: the head of the stimulus list, or a quiet edge where the list is empty (log 1). -/
def fetch (s : State) : Fetched :=
  match s.stim with
  | [] => edgeFetch quietPins s
  | .pins p :: _ => edgeFetch p s
  | .word f w :: _ =>
    match decode f w with
    | .ok i => benchFetch i s
    | .error r => .reject (.badWord r)
  | .op i :: _ => benchFetch i s

/-- The stimulus a step has taken is gone. -/
def State.popStim (s : State) : State := { s with stim := s.stim.tail }

end Sys2Proof.Machine
end

