-- ==== Sys2Proof/Machine/Dispatch.lean ====
section
/-! DEFINITION. The meaning of each operation: one arm per row of spec/opcode_table.json. -/

namespace Sys2Proof.Machine

def exec (i : Instr) (s : State) : Host.Outcome State Fault Refusal :=
  match i with
  | .encOrange c => Sys2Proof.Machine.execEncOrange c s
  | .encGreen c => Sys2Proof.Machine.execEncGreen c s
  | .tlMark d => Sys2Proof.Machine.execTlMark d s
  | .tlSpace d => Sys2Proof.Machine.execTlSpace d s
  | .man0 => Sys2Proof.Machine.execMan0 s
  | .man1 => Sys2Proof.Machine.execMan1 s
  | .pd0 => Sys2Proof.Machine.execPd0 s
  | .pd1 => Sys2Proof.Machine.execPd1 s
  | .tlClear => Sys2Proof.Machine.execTlClear s
  | .tlLoad l => Sys2Proof.Machine.execTlLoad l s
  | .tlAppend l => Sys2Proof.Machine.execTlAppend l s
  | .tlRead => Sys2Proof.Machine.execTlRead s
  | .manBit b => Sys2Proof.Machine.execManBit b s
  | .manNum v w => Sys2Proof.Machine.execManNum v w s
  | .pdBit b => Sys2Proof.Machine.execPdBit b s
  | .pdBuf bytes w => Sys2Proof.Machine.execPdBuf bytes w s
  | .orangeCode => Sys2Proof.Machine.execOrangeCode s
  | .oPktHeader => Sys2Proof.Machine.execOPktHeader s
  | .oCodeHeader => Sys2Proof.Machine.execOCodeHeader s
  | .oCodeTail => Sys2Proof.Machine.execOCodeTail s
  | .oPktTail => Sys2Proof.Machine.execOPktTail s
  | .orangePacket => Sys2Proof.Machine.execOrangePacket s
  | .greenBytes => Sys2Proof.Machine.execGreenBytes s
  | .greenCsum => Sys2Proof.Machine.execGreenCsum s
  | .bitrev8 b => Sys2Proof.Machine.execBitrev8 b s
  | .greenReverse => Sys2Proof.Machine.execGreenReverse s
  | .gPktHeader => Sys2Proof.Machine.execGPktHeader s
  | .gCodeHeader => Sys2Proof.Machine.execGCodeHeader s
  | .gCodeTail => Sys2Proof.Machine.execGCodeTail s
  | .gPktTail => Sys2Proof.Machine.execGPktTail s
  | .greenPacket => Sys2Proof.Machine.execGreenPacket s
  | .cmdAccept cw => Sys2Proof.Machine.execCmdAccept cw s
  | .drainBeat => Sys2Proof.Machine.execDrainBeat s
  | .send c => Sys2Proof.Machine.execSend c s
  | .reset => Sys2Proof.Machine.execReset s

end Sys2Proof.Machine
end

