-- ==== Sys2Proof/Machine/Step.lean ====
section
/-! DEFINITION. One step of the machine: take the next stimulus, run the operation it asks for. -/

namespace Sys2Proof.Machine

/-- One step: what `fetch` names runs on the state with its stimulus taken; where it names none, the
block stays as it is. -/
def step (s : State) : Host.Outcome State Fault Refusal :=
  match fetch s with
  | .wait => .next s.popStim
  | .run i => exec i s.popStim
  | .reject r => .refused r

/-- The state whose next step fetches and runs the word `w` of an opcode-table row of `nbits` bits: the word is at the
head of the stimulus list and no command owns the units (log 2). -/
def State.withFetchWord (s : State) (nbits w : Nat) : State :=
  { s with phase := .idle, stim := .word (tableFormat nbits) w :: s.stim }

end Sys2Proof.Machine
end

