-- ==== Sys2Proof/Safety.lean ====
section
/-! DEFINITION. The terms claims are stated in: the Timeline as the plain list of durations the source defines (R28), the
operations' rules on such lists, the two frames, the decoders the spec names as test oracles (R129), and the invariant of
a run. Nothing here is used by the machine. -/

namespace Sys2Proof.Safety

open Sys2Proof.Machine

/-! ### The Timeline as a list (R28) -/

/-- The store holds the list `l`: its length register is the length, and element i reads as `l[i]`. -/
abbrev Holds (tl : TL) (l : List Nat) : Prop :=
  tl.len = l.length ∧ ∀ i, i < l.length → Memory.read tl.mem i = l[i]?

/-- The list fits the store: at most 256 elements (R109), none above 65535 (R9, R28). -/
abbrev Fits (l : List Nat) : Prop := l.length ≤ 256 ∧ ∀ x ∈ l, x ≤ 65535

/-- `exec` of an operation that would leave the list `l` faults, and the fault names a bound of the store that `l` breaks:
index 256 (R109) or an element above 65535 (R108 for a merge, log 15 for an operand). -/
def FaultsAtTheBound (i : Instr) (s : State) (l : List Nat) : Prop :=
  (exec i s = .fault .timelineFull ∧ 256 < l.length) ∨
  (exec i s = .fault .durationOverflow ∧ ∃ x ∈ l, 65535 < x)

/-- The last element grown by `d`; an empty list has none. -/
def bumpLast (d : Nat) : List Nat → List Nat
  | [] => []
  | [x] => [x + d]
  | x :: y :: rest => x :: bumpLast d (y :: rest)

/-- R102 on lists: extend a mark, or begin a new element. -/
def addMark (d : Nat) (l : List Nat) : List Nat := if l.length % 2 = 1 then bumpLast d l else l ++ [d]

/-- R103 on lists: on the empty list a zero-length mark comes first; extend a space, or begin a new element. -/
def addSpace (d : Nat) (l : List Nat) : List Nat :=
  if l = [] then [0, d] else if l.length % 2 = 0 then bumpLast d l else l ++ [d]

/-- One push: a space if `space`, else a mark. -/
def addPush (p : Bool × Nat) (l : List Nat) : List Nat := if p.1 then addSpace p.2 l else addMark p.2 l

/-- The durations of `other` pushed with alternating polarity. -/
def replay : List Nat → Bool → List Nat → List Nat
  | [], _, l => l
  | d :: rest, space, l => replay rest (!space) (addPush (space, d) l)

/-- R104 on lists. -/
def appendTo (other l : List Nat) : List Nat :=
  if other.head? = some 0 then replay other.tail true l else replay other false l

/-- Total time of the marks: the elements at even indexes (R106). -/
def markTime : List Nat → Nat
  | [] => 0
  | [x] => x
  | x :: _ :: rest => x + markTime rest

/-- Total time of the spaces: the elements at odd indexes (R106). -/
def spaceTime : List Nat → Nat
  | [] => 0
  | [_] => 0
  | _ :: y :: rest => y + spaceTime rest

/-- A sequence of `TL_MARK` and `TL_SPACE` operations on the machine's Timeline unit (R107). -/
def runPushes : List (Bool × Nat) → TL → Except Fault TL
  | [], tl => .ok tl
  | (space, d) :: rest, tl => (if space then TL.space d tl else TL.mark d tl).bind (runPushes rest)

/-- The marks a sequence begins with. -/
def leadingMarks (h : List (Bool × Nat)) : List Nat := (h.takeWhile (fun p => !p.1)).map Prod.snd

/-! ### The bit schemes on lists (R120 to R127) -/

/-- One Manchester bit: mark, space for 0; space, mark for 1. -/
def manBit (u : Nat) (l : List Nat) (b : Bool) : List Nat :=
  if b then addMark u (addSpace u l) else addSpace u (addMark u l)

/-- One pulse-distance bit: a mark of one unit, a space of one unit for 0 and of three for 1. -/
def pdBit (u : Nat) (l : List Nat) (b : Bool) : List Nat := addSpace (if b then 3 * u else u) (addMark u l)

/-- Bits w-1 down to 0 of `v` (R123). -/
def numBits (v w : Nat) : List Bool := ((List.range w).map v.testBit).reverse

/-- Bits 0 to w-1 of a byte list's stream, each byte from bit 7 down (R127). -/
def bufBits (bytes : List Byte) (w : Nat) : List Bool :=
  (List.range w).map fun j => (bytes.getD (j / 8) 0).getLsbD (7 - j % 8)

/-! ### The two frames -/

/-- One Orange code block on a list: header, then 34 Manchester bits (R142, R145). -/
def addOrangeBlock (code : BitVec 34) (l : List Nat) : List Nat :=
  (numBits code.toNat 34).foldl (manBit 992) (addSpace 2976 (addMark 2976 l))

/-- The Orange frame of a code word (R145): three blocks, then the tail mark. -/
def orangeFrame (code : BitVec 34) : List Nat :=
  addMark 3968 (addOrangeBlock code (addOrangeBlock code (addOrangeBlock code [])))

/-- Wire bit j of the Green frame is bit j mod 8 of byte j div 8 of the unreversed buffer (R55). -/
def wireBits (g : GBuf) : List Bool := (List.range 104).map fun j => (g.toList.getD (j / 8) 0).getLsbD (j % 8)

/-- The mark and the space of one Green bit (R172). -/
def greenPair (b : Bool) : List Nat := [560, if b then 1680 else 560]

/-- The Green frame of an unreversed buffer, element by element (R172). -/
def greenFrame (g : GBuf) : List Nat := [9000, 4500] ++ (wireBits g).flatMap greenPair ++ [560]

/-- The number of positions 0 to 32 where neighbouring code bits differ: `t` of R153. -/
def transitions (code : BitVec 34) : Nat :=
  (List.range 33).countP fun i => code.getLsbD i != code.getLsbD (i + 1)

/-- The number of 1 bits of the thirteen bytes: `ones` of R172. -/
def ones (g : GBuf) : Nat := (wireBits g).countP id

/-! ### The decoders of R129 -/

/-- The half-unit view: element i of k units is k halves of its polarity. -/
def halves (u : Nat) : Nat → List Nat → List Polarity
  | _, [] => []
  | i, d :: rest => List.replicate (d / u) (elementPolarity i) ++ halves u (i + 1) rest

/-- Halves read in pairs: mark then space is 0, space then mark is 1, anything else is no bit. -/
def decodeHalves : List Polarity → Option (List Bool)
  | [] => some []
  | .mark :: .space :: rest => (decodeHalves rest).map (fun l => false :: l)
  | .space :: .mark :: rest => (decodeHalves rest).map (fun l => true :: l)
  | _ => none

/-- Elements read in pairs: one unit then one is 0, one unit then three is 1, anything else is no bit. -/
def decodePairs (u : Nat) : List Nat → Option (List Bool)
  | [] => some []
  | a :: b :: rest =>
    if a = u ∧ b = u then (decodePairs u rest).map (fun l => false :: l)
    else if a = u ∧ b = 3 * u then (decodePairs u rest).map (fun l => true :: l)
    else none
  | [_] => none

/-! ### What the sink receives -/

/-- The transfers of a whole frame, in index order, each with its sidebands (R53, R62, R183). -/
def frameBeats (l : List Nat) (freq : BitVec 8) : List SinkEvent :=
  l.zipIdx.map fun p => .beat p.1 (decide (p.2 + 1 = l.length)) l.length freq

/-! ### The invariant of a run -/

/-- The store is in its canonical form, `TL.len` is in its range, and every element below it has been written. -/
abbrev StoreOk (tl : TL) : Prop :=
  Memory.wf tl.mem = true ∧ tl.len ≤ 256 ∧ ∀ i, i < tl.len → (Memory.read tl.mem i).isSome = true

/-- The frame the code registers stand for under the latched protocol. -/
def frameOf (s : State) : List Nat :=
  match s.proto with
  | .orange => orangeFrame s.codeO
  | .green => greenFrame s.gbuf

/-- While a frame is drained (R62, R183, R235): the store holds exactly the frame of the code register, `FREQ` is the
latched protocol's, an element is still to come, and the sink's last `RPTR` transfers are the frame's first. -/
def Draining (s : State) : Prop :=
  Holds s.tl (frameOf s) ∧ s.freq = (Config.row s.proto).freq ∧ s.rptr < s.tl.len ∧
    ∃ before, s.sink = before ++ (frameBeats (frameOf s) s.freq).take s.rptr

/-- The invariant: the store is well formed, `RPTR` is in its range, and a frame that is being drained is whole. -/
def Inv (s : State) : Prop := StoreOk s.tl ∧ s.rptr ≤ 256 ∧ (s.phase = .drain → Draining s)

/-- A test bench presents the operation `i` at the coming step, itself or as a word of a format (log 1). -/
def Presents (s : State) (i : Instr) (rest : List Stimulus) : Prop :=
  s.stim = .op i :: rest ∨ ∃ f w, s.stim = .word f w :: rest ∧ decode f w = .ok i

/-- The coming step is a clock edge of the block: what the hardware does, no test bench (log 1). -/
def AtPorts (s : State) : Prop := s.stim = [] ∨ ∃ p rest, s.stim = .pins p :: rest

/-- The mode codes that name a member of the enumeration (R21). -/
abbrev ModeValid (c : Cfg) : Prop := c.mode.toNat ≤ 4

/-- The valid temperatures (R23). -/
abbrev TempInRange (c : Cfg) : Prop := 15 ≤ c.temp.toNat ∧ c.temp.toNat ≤ 30

end Sys2Proof.Safety
end

