-- ==== Sys2Proof/Certificates/Slice0/Obligations.lean ====
section
/-! DEFINITION. The statements for the provers. A Timeline in the store is named by the list it holds (`Holds`), the
condition under which an operation completes is that the list the rules give fits the store (`Fits`), and what an
operation leaves unchanged is said by writing the next state as the old one with the changed fields. -/

open Sys2Proof Sys2Proof.Machine Sys2Proof.Safety

/-! ### Encoding -/

/-- R70 to R73: every well-formed encoded operation has a word in its format, and the decoder reads it back. -/
def Obligations.DecodeOfEncodeIsTheOperation : Prop :=
  ∀ i : Instr, i.isEncoded = true → WellFormed i = true →
    ∃ f w, encode i = some (f, w) ∧ w < 2 ^ f.width ∧ decode f w = .ok i

/-- R88, R91: every number below 2 to the format's width is a word, the operation it selects is well formed, and it encodes
to that number; every other number is rejected; a macro-operation has no word. That an operation with an operand out of range
has none either is read from R72, R102 and R103 (log 15). -/
def Obligations.EveryWordDecodesAndEncodesBack : Prop :=
  (∀ (f : WordFormat) (w : Nat),
    (w < 2 ^ f.width → ∃ i, decode f w = .ok i ∧ WellFormed i = true ∧ encode i = some (f, w)) ∧
    (2 ^ f.width ≤ w → ∃ r, decode f w = .error r)) ∧
  ∀ i : Instr, i.isEncoded = false ∨ WellFormed i = false → encode i = none

/-- R71 to R73: the spec's example words select the operations it says. -/
def Obligations.ExampleWordsDecode : Prop :=
  decode .cw 0x08060 = .ok (.encOrange ⟨true, 0, 0, 24, false, false⟩) ∧
  decode .cw 0x18060 = .ok (.encGreen ⟨true, 0, 0, 24, false, false⟩) ∧
  decode .pw 0x00BA0 = .ok (.tlMark 2976) ∧ decode .pw 0x11194 = .ok (.tlSpace 4500) ∧
  decode .bw 0 = .ok .man0 ∧ decode .bw 1 = .ok .man1 ∧ decode .bw 2 = .ok .pd0 ∧ decode .bw 3 = .ok .pd1

/-! ### Steps -/

/-- An operation that a test bench presents, itself or as a word that decodes to it, runs as `exec` of it: in IDLE and
BUILD whichever it is, in DRAIN unless it writes what is held there (R34, R38), when it is taken with no effect. The
stimulus list, and that reading of DRAIN, are the model's own (log 1). -/
def Obligations.StepRunsThePresentedOperation : Prop :=
  (∀ (s : State) (i : Instr) (rest : List Stimulus), Presents s i rest →
      (s.phase ≠ .drain ∨ runsInDrain i = true → step s = exec i { s with stim := rest }) ∧
      (s.phase = .drain → runsInDrain i = false → step s = .next { s with stim := rest })) ∧
  (∀ (s : State) (nbits w : Nat) (i : Instr), decodeTableWord nbits w = some i →
      step (s.withFetchWord nbits w) = exec i { s with phase := .idle })

/-- R203: what one clock edge does, in priority order: reset; in DRAIN a transfer when `out_ready`; in BUILD the build of
the latched command, with both ports idle; in IDLE an accept when `cmd_valid`; otherwise nothing. That an edge's pins
stand in a list is the model's choice (log 1), and that the build takes one edge (log 12). -/
def Obligations.ClockEdgePriority : Prop :=
  ∀ (s : State) (p : Pins) (rest : List Stimulus), s.stim = .pins p :: rest →
    (p.rst = true → step s = exec .reset { s with stim := rest }) ∧
    (p.rst = false → s.phase = .drain → p.outReady = true → step s = exec .drainBeat { s with stim := rest }) ∧
    (p.rst = false → s.phase = .drain → p.outReady = false → step s = .next { s with stim := rest }) ∧
    (p.rst = false → s.phase = .build → s.proto = .orange → step s = exec (.encOrange s.cfg) { s with stim := rest }) ∧
    (p.rst = false → s.phase = .build → s.proto = .green → step s = exec (.encGreen s.cfg) { s with stim := rest }) ∧
    (s.phase = .build → cmdReady s = false ∧ outValid s = false) ∧
    (p.rst = false → s.phase = .idle → p.cmdValid = true →
      step s = exec (.cmdAccept p.cw) { s with stim := rest }) ∧
    (p.rst = false → s.phase = .idle → p.cmdValid = false → step s = .next { s with stim := rest })

/-! ### Reset -/

/-- R39: the reset values the spec gives. -/
def Obligations.ResetStateValues : Prop :=
  State.reset.phase = .idle ∧ State.reset.tl.len = 0 ∧ State.reset.rptr = 0 ∧ State.reset.rep = 0 ∧
  State.reset.bitIdx = 0 ∧ busy State.reset = false

/-- R230: at an edge with `rst` = 1, in any phase, five registers are written and nothing else; afterwards `cmd_ready` = 1,
`out_valid` = 0, `BUSY` = 0. `exec .reset` is that effect. That an edge's pins stand in a list is the model's (log 1). -/
def Obligations.ResetPinWritesFiveRegisters : Prop :=
  (∀ s : State, exec .reset s =
    .next { s with phase := .idle, tl := { s.tl with len := 0 }, rptr := 0, rep := 0, bitIdx := 0 }) ∧
  (∀ (s : State) (p : Pins) (rest : List Stimulus), s.stim = .pins p :: rest → p.rst = true →
    ∃ t, step s = .next t ∧
      t = { s with phase := .idle, tl := { s.tl with len := 0 }, rptr := 0, rep := 0, bitIdx := 0, stim := rest } ∧
      cmdReady t = true ∧ outValid t = false ∧ busy t = false)

/-! ### The invariant -/

/-- The state after reset meets the invariant. -/
def Obligations.ResetMeetsInvariant : Prop := Inv State.reset

/-- Every step keeps the invariant: the store stays in canonical form with every element below `TL.len` written, and while
a frame is drained the store holds exactly that frame and the sink has got exactly its first `RPTR` elements. The sink
record (log 3), that an unwritten element has no value (log 5) and that an operand above 65535 is stored nowhere (log 15)
are the model's choices. -/
def Obligations.StepKeepsInvariant : Prop :=
  ∀ s t : State, Inv s → step s = .next t → Inv t

/-- Every operation, in any phase, keeps the Timeline store well formed; the canonical form is the model's (log 5),
and so is that an operand above 65535 is stored nowhere (log 15). -/
def Obligations.OperationsKeepStoreWellFormed : Prop :=
  ∀ (i : Instr) (s t : State), StoreOk s.tl → exec i s = .next t → StoreOk t.tl

/-- R200, R204: a clock edge of the block from a state that meets the invariant always answers a next state, whatever the
inputs: no fault, no refusal. That an edge's pins stand in a list, and that an empty list is an edge at which the outside
asks for nothing, are the model's choices (log 1). -/
def Obligations.ClockEdgesNeverStop : Prop :=
  ∀ s : State, Inv s → AtPorts s → ∃ t, step s = .next t

/-! ### The Timeline unit -/

/-- R102: `TL_MARK`, its word and its effect. The element stored to is the last one when the length is odd, else the one
at the length. -/
def Obligations.TlMarkStoresOneElement : Prop :=
  (∀ d, d ≤ 65535 → encode (.tlMark d) = some (.pw, d)) ∧
  ∀ (s : State) (d : Nat) (l : List Nat), Holds s.tl l → Fits (addMark d l) →
    ∃ tl, exec (.tlMark d) s = .next { s with tl := tl } ∧ Holds tl (addMark d l) ∧
      ∀ i, i ≠ (if s.tl.len % 2 = 1 then s.tl.len - 1 else s.tl.len) → Memory.read tl.mem i = Memory.read s.tl.mem i

/-- R103: `TL_SPACE`, its word and its effect. On an empty Timeline elements 0 and 1 are stored; else the last one when
the length is even, else the one at the length. -/
def Obligations.TlSpaceStoresItsElements : Prop :=
  (∀ d, d ≤ 65535 → encode (.tlSpace d) = some (.pw, 65536 + d)) ∧
  ∀ (s : State) (d : Nat) (l : List Nat), Holds s.tl l → Fits (addSpace d l) →
    ∃ tl, exec (.tlSpace d) s = .next { s with tl := tl } ∧ Holds tl (addSpace d l) ∧
      (s.tl.len = 0 → ∀ i, 2 ≤ i → Memory.read tl.mem i = Memory.read s.tl.mem i) ∧
      (s.tl.len ≠ 0 → ∀ i, i ≠ (if s.tl.len % 2 = 0 then s.tl.len - 1 else s.tl.len) →
        Memory.read tl.mem i = Memory.read s.tl.mem i)

/-- R108, R109: where the list the rules give does not fit the store, `TL_MARK` and `TL_SPACE` fault, with the reason the
rule names, and never wrap. That an operand above 65535 which begins a new element faults as a merge's sum does, and which
reason is reported where both hold, are the model's choices (log 15). -/
def Obligations.StoreBoundsFault : Prop :=
  ∀ (s : State) (d : Nat) (l : List Nat), Holds s.tl l → Fits l →
    (¬ Fits (addMark d l) →
      exec (.tlMark d) s = .fault (if l.length = 256 then .timelineFull else .durationOverflow)) ∧
    (¬ Fits (addSpace d l) → exec (.tlSpace d) s = .fault .durationOverflow)

/-- R108, R109: the other operations that load or push, of every unit, fault likewise where the list the rules give does
not fit the store, and the fault names a bound that this list breaks. Which of the two is reported where
both are broken is not constrained. That an operand, or an element of a literal, above 65535 faults where nothing merges is
the model's choice (log 15). -/
def Obligations.CompositeOperationsFaultAtTheBounds : Prop :=
  ∀ (s : State) (l : List Nat), Holds s.tl l → Fits l →
    (∀ seq, ¬ Fits seq → FaultsAtTheBound (.tlLoad seq) s seq) ∧
    (∀ other, ¬ Fits (appendTo other l) → FaultsAtTheBound (.tlAppend other) s (appendTo other l)) ∧
    (∀ b, ¬ Fits (manBit 992 l b) → FaultsAtTheBound (.manBit b) s (manBit 992 l b) ∧
      FaultsAtTheBound (if b then .man1 else .man0) s (manBit 992 l b)) ∧
    (∀ v w, w ≤ 64 → ¬ Fits ((numBits v w).foldl (manBit 992) l) →
      FaultsAtTheBound (.manNum v w) s ((numBits v w).foldl (manBit 992) l)) ∧
    (∀ b, ¬ Fits (pdBit 560 l b) → FaultsAtTheBound (.pdBit b) s (pdBit 560 l b) ∧
      FaultsAtTheBound (if b then .pd1 else .pd0) s (pdBit 560 l b)) ∧
    (∀ bytes w, w ≤ 8 * bytes.length → ¬ Fits ((bufBits bytes w).foldl (pdBit 560) l) →
      FaultsAtTheBound (.pdBuf bytes w) s ((bufBits bytes w).foldl (pdBit 560) l)) ∧
    (¬ Fits (addSpace 2976 (addMark 2976 l)) →
      FaultsAtTheBound .oCodeHeader s (addSpace 2976 (addMark 2976 l))) ∧
    (¬ Fits (addMark 3968 l) → FaultsAtTheBound .oPktTail s (addMark 3968 l)) ∧
    (¬ Fits (addSpace 4500 (addMark 9000 l)) →
      FaultsAtTheBound .gPktHeader s (addSpace 4500 (addMark 9000 l))) ∧
    (¬ Fits (addMark 560 l) → FaultsAtTheBound .gPktTail s (addMark 560 l))

/-- R100, R141, R143, R165: `TL_CLEAR` sets the length to 0 and leaves the elements; the empty headers and tails change
nothing. -/
def Obligations.ClearAndEmptyOperations : Prop :=
  ∀ s : State,
    exec .tlClear s = .next { s with tl := { s.tl with len := 0 } } ∧
    exec .oPktHeader s = .next s ∧ exec .oCodeTail s = .next s ∧
    exec .gCodeHeader s = .next s ∧ exec .gCodeTail s = .next s

/-- R101: `TL_LOAD` stores the literal as it is, elements from its length on stay as they were. -/
def Obligations.TlLoadStoresVerbatim : Prop :=
  ∀ (s : State) (l : List Nat), Fits l →
    ∃ tl, exec (.tlLoad l) s = .next { s with tl := tl } ∧ Holds tl l ∧
      ∀ i, l.length ≤ i → Memory.read tl.mem i = Memory.read s.tl.mem i

/-- R104: `TL_APPEND` drops a leading zero and replays the rest. -/
def Obligations.TlAppendReplays : Prop :=
  ∀ (s : State) (other l : List Nat), Holds s.tl l → Fits (appendTo other l) →
    ∃ tl, exec (.tlAppend other) s = .next { s with tl := tl } ∧ Holds tl (appendTo other l) ∧
      ∀ i, i + 1 < s.tl.len ∨ tl.len ≤ i → Memory.read tl.mem i = Memory.read s.tl.mem i

/-- R105: `TL_READ` gives the list the store holds and changes no state of the block; `ret` is the model's (log 8). -/
def Obligations.TlReadGivesTheList : Prop :=
  ∀ (s : State) (l : List Nat), Holds s.tl l → exec .tlRead s = .next { s with ret := .durations l }

/-- R106 (b), (c): a mark adds its duration to the marks' total and nothing to the spaces', a space the other way round;
the length grows by at most one, but by two for a space on an empty Timeline. -/
def Obligations.PushesConserveTime : Prop :=
  ∀ (s t : State) (d : Nat) (l : List Nat), Holds s.tl l →
    (exec (.tlMark d) s = .next t → ∃ l', Holds t.tl l' ∧ markTime l' = markTime l + d ∧
      spaceTime l' = spaceTime l ∧ (l'.length = l.length ∨ l'.length = l.length + 1)) ∧
    (exec (.tlSpace d) s = .next t → ∃ l', Holds t.tl l' ∧ markTime l' = markTime l ∧
      spaceTime l' = spaceTime l + d ∧
      (l = [] → l'.length = 2) ∧ (l ≠ [] → l'.length = l.length ∨ l'.length = l.length + 1))

/-- R29, R30: after a mark the current polarity is mark, after a space it is space, whatever stood before. -/
def Obligations.PushSetsCurrentPolarity : Prop :=
  ∀ (s t : State) (d : Nat),
    (exec (.tlMark d) s = .next t → t.tl.polarity = some .mark) ∧
    (exec (.tlSpace d) s = .next t → t.tl.polarity = some .space)

/-- R107: appending a Timeline built from empty equals issuing its operations, unless they begin with marks that sum to
zero. -/
def Obligations.AppendEqualsReplayedOperations : Prop :=
  ∀ (s : State) (h : List (Bool × Nat)) (b : TL) (l lb : List Nat), Holds s.tl l →
    runPushes h { mem := [], len := 0 } = .ok b → Holds b lb →
    (leadingMarks h = [] ∨ 0 < (leadingMarks h).sum) →
    exec (.tlAppend lb) s = outcome (s.onTL (runPushes h))

/-! ### The bit encoder -/

/-- R120 to R122: one Manchester bit, as `MAN0`, `MAN1` or `MAN_BIT`, at unit 992, and the bit words. -/
def Obligations.ManchesterBitOperations : Prop :=
  encode .man0 = some (.bw, 0b00) ∧ encode .man1 = some (.bw, 0b01) ∧
  ∀ (s : State) (b : Bool) (l : List Nat), Holds s.tl l → Fits (manBit 992 l b) →
    ∃ tl, exec (.manBit b) s = .next { s with tl := tl } ∧
      exec (if b then .man1 else .man0) s = .next { s with tl := tl } ∧ Holds tl (manBit 992 l b) ∧
      ∀ i, i + 1 < s.tl.len ∨ tl.len ≤ i → Memory.read tl.mem i = Memory.read s.tl.mem i

/-- R124 to R126: one pulse-distance bit, as `PD0`, `PD1` or `PD_BIT`, at unit 560, and the bit words. -/
def Obligations.PulseDistanceBitOperations : Prop :=
  encode .pd0 = some (.bw, 0b10) ∧ encode .pd1 = some (.bw, 0b11) ∧
  ∀ (s : State) (b : Bool) (l : List Nat), Holds s.tl l → Fits (pdBit 560 l b) →
    ∃ tl, exec (.pdBit b) s = .next { s with tl := tl } ∧
      exec (if b then .pd1 else .pd0) s = .next { s with tl := tl } ∧ Holds tl (pdBit 560 l b) ∧
      ∀ i, i + 1 < s.tl.len ∨ tl.len ≤ i → Memory.read tl.mem i = Memory.read s.tl.mem i

/-- R123: `MAN_NUM` encodes bits w-1 down to 0 of v. -/
def Obligations.ManNumEncodesMostSignificantFirst : Prop :=
  ∀ (s : State) (v w : Nat) (l : List Nat), w ≤ 64 → Holds s.tl l → Fits ((numBits v w).foldl (manBit 992) l) →
    ∃ tl, exec (.manNum v w) s = .next { s with tl := tl } ∧ Holds tl ((numBits v w).foldl (manBit 992) l) ∧
      ∀ i, i + 1 < s.tl.len ∨ tl.len ≤ i → Memory.read tl.mem i = Memory.read s.tl.mem i

/-- R127: `PD_BUF` encodes bits 0 to w-1 of the byte list's stream. -/
def Obligations.PdBufEncodesTheStream : Prop :=
  ∀ (s : State) (bytes : List Byte) (w : Nat) (l : List Nat), w ≤ 8 * bytes.length → Holds s.tl l →
    Fits ((bufBits bytes w).foldl (pdBit 560) l) →
    ∃ tl, exec (.pdBuf bytes w) s = .next { s with tl := tl } ∧ Holds tl ((bufBits bytes w).foldl (pdBit 560) l) ∧
      ∀ i, i + 1 < s.tl.len ∨ tl.len ≤ i → Memory.read tl.mem i = Memory.read s.tl.mem i

/-- 93_implementation_defined.md U6: a width outside the operation's contract is refused, in every state. -/
def Obligations.WidthsOutsideTheContractAreRefused : Prop :=
  ∀ (s : State) (v w : Nat) (bytes : List Byte),
    (64 < w → exec (.manNum v w) s = .refused .manNumWidth) ∧
    (8 * bytes.length < w → exec (.pdBuf bytes w) s = .refused .pdBufWidth)

/-- R123, R129: on an empty Timeline the halves of `MAN_NUM v, w`, read pairwise, give back bits w-1 to 0 of v, and the
total duration is 2 * w * 992. -/
def Obligations.ManchesterDecodesBack : Prop :=
  ∀ (s : State) (v w : Nat), w ≤ 64 → s.tl.len = 0 →
    ∃ t l, exec (.manNum v w) s = .next t ∧ Holds t.tl l ∧
      decodeHalves (halves 992 0 l) = some (numBits v w) ∧ l.sum = 2 * w * 992

/-- R127, R129: on an empty Timeline `PD_BUF` adds two elements per bit, read pairwise they give the stream back, and the
total duration is 560 * (2 * w + 2 * ones). -/
def Obligations.PulseDistanceDecodesBack : Prop :=
  ∀ (s : State) (bytes : List Byte) (w : Nat), w ≤ 8 * bytes.length → w ≤ 128 → s.tl.len = 0 →
    ∃ t l, exec (.pdBuf bytes w) s = .next t ∧ Holds t.tl l ∧ l.length = 2 * w ∧
      decodePairs 560 l = some (bufBits bytes w) ∧ l.sum = 560 * (2 * w + 2 * (bufBits bytes w).countP id)

/-! ### The Orange framer -/

/-- R140, R74 to R77, R85: `ORANGE_CODE` writes `CODE_O`, the number the layout gives; the mode field of a reserved mode
is not constrained. `draws` is the model's counter of draws (log 6). -/
def Obligations.OrangeCodeIsTheLayout : Prop :=
  ∀ s : State, ∃ (t : State) (m3 : Nat),
    exec .orangeCode s = .next t ∧ t = { s with codeO := t.codeO, draws := t.draws } ∧ m3 < 8 ∧
    (s.cfg.mode = 0 → m3 = 0b001) ∧ (s.cfg.mode = 1 → m3 = 0b010) ∧ (s.cfg.mode = 2 → m3 = 0b101) ∧
    (s.cfg.mode = 3 → m3 = 0b100) ∧ (s.cfg.mode = 4 → m3 = 0b011) ∧
    t.codeO.toNat = s.cfg.power.toNat * 2 ^ 33 + m3 * 2 ^ 30 + s.cfg.fan.toNat * 2 ^ 28 + s.cfg.swing.toNat * 2 ^ 25
      + (((s.cfg.temp.toNat : Int) - 15) % 16).toNat * 2 ^ 19 + s.cfg.sleep.toNat * 2 ^ 18 + 2

/-- R142, R144: the code header is a mark and a space of 2976, the packet tail a mark of 3968. -/
def Obligations.OrangeHeaderAndTail : Prop :=
  ∀ (s : State) (l : List Nat), Holds s.tl l →
    (Fits (addSpace 2976 (addMark 2976 l)) →
      ∃ tl, exec .oCodeHeader s = .next { s with tl := tl } ∧ Holds tl (addSpace 2976 (addMark 2976 l)) ∧
        ∀ i, i + 1 < s.tl.len ∨ tl.len ≤ i → Memory.read tl.mem i = Memory.read s.tl.mem i) ∧
    (Fits (addMark 3968 l) →
      ∃ tl, exec .oPktTail s = .next { s with tl := tl } ∧ Holds tl (addMark 3968 l) ∧
        ∀ i, i ≠ (if s.tl.len % 2 = 1 then s.tl.len - 1 else s.tl.len) →
          Memory.read tl.mem i = Memory.read s.tl.mem i)

/-- R145: on an empty Timeline `ORANGE_PACKET` builds the frame of `CODE_O`, for every 34-bit code; the working registers
are left with values the spec does not give (log 7). -/
def Obligations.OrangePacketBuildsTheFrame : Prop :=
  ∀ s : State, s.tl.len = 0 →
    ∃ t, exec .orangePacket s = .next t ∧ Holds t.tl (orangeFrame s.codeO) ∧
      t = { s with tl := t.tl, rep := t.rep, bitIdx := t.bitIdx, draws := t.draws } ∧
      ∀ i, t.tl.len ≤ i → Memory.read t.tl.mem i = Memory.read s.tl.mem i

/-- R153 (a) to (d): the shape of the frame of every Orange command, reserved modes included. Accept and build are one
`exec` from IDLE (log 11). -/
def Obligations.OrangeFrameShape : Prop :=
  ∀ (s : State) (c : Cfg), s.phase = .idle →
    ∃ t block, exec (.encOrange c) s = .next t ∧ Holds t.tl (block ++ block ++ block ++ [3968]) ∧
      block.length + transitions t.codeO + (t.codeO.getLsbD 33).toNat = 70 ∧
      (block ++ block ++ block ++ [3968]).sum = 224192 ∧
      (∀ x ∈ block, x = 992 ∨ x = 1984 ∨ x = 2976 ∨ x = 3968) ∧
      block[0]? = some 2976 ∧ block[1]? = some (if t.codeO.getLsbD 33 then 3968 else 2976) ∧
      block.drop (block.length - 3) = [1984, 1984, 992]

/-- R54, R129, R146: in each of the three equal blocks of an Orange frame, after the six halves of the header, the halves
read pairwise give the 34 code bits, bit 33 first. Accept and build are one `exec` from IDLE (log 11). -/
def Obligations.OrangeFrameCarriesTheCode : Prop :=
  ∀ (s : State) (c : Cfg), s.phase = .idle →
    ∃ t block, exec (.encOrange c) s = .next t ∧ Holds t.tl (block ++ block ++ block ++ [3968]) ∧
      (halves 992 0 block).take 6 = [.mark, .mark, .mark, .space, .space, .space] ∧
      decodeHalves ((halves 992 0 block).drop 6) = some (numBits t.codeO.toNat 34)

/-! ### The Green framer -/

/-- R160, R78 to R82, R85, R86: `GREEN_BYTES` writes bytes 0 to 11 by the layout; the mode field of a reserved mode and
byte 1 for a temperature outside 15 to 30 are not constrained, and byte 12 is kept. Byte 1 has the low temperature field
of either value of `GREEN_TLOW` (R10, R81). -/
def Obligations.GreenBytesAreTheLayout : Prop :=
  ∀ s : State, ∃ (t : State) (m3 f3 : Nat),
    exec .greenBytes s = .next t ∧ t = { s with gbuf := t.gbuf, draws := t.draws } ∧
    t.gbuf.b0 = 0xC3 ∧
    (TempInRange s.cfg → t.gbuf.b1.toNat =
      (s.cfg.temp.toNat / 8 - 1) * 64 + (if s.greenTlow = .mod8 then s.cfg.temp.toNat % 8 else 0) * 8 +
        (if s.cfg.swing then 0 else 7)) ∧
    t.gbuf.b2 = 0xE0 ∧ t.gbuf.b3 = 0 ∧ t.gbuf.b4.toNat = f3 * 32 ∧ t.gbuf.b5 = 0 ∧
    t.gbuf.b6.toNat = m3 * 32 + s.cfg.sleep.toNat * 4 ∧ t.gbuf.b7 = 0 ∧ t.gbuf.b8 = 0 ∧
    t.gbuf.b9 = (if s.cfg.power then 0x20 else 0) ∧ t.gbuf.b10 = 0 ∧ t.gbuf.b11 = 5 ∧ t.gbuf.b12 = s.gbuf.b12 ∧
    (s.cfg.fan = 0 → f3 = 0b011) ∧ (s.cfg.fan = 1 → f3 = 0b010) ∧ (s.cfg.fan = 2 → f3 = 0b001) ∧
    (s.cfg.fan = 3 → f3 = 0b101) ∧ m3 < 8 ∧
    (s.cfg.mode = 0 → m3 = 0b001) ∧ (s.cfg.mode = 1 → m3 = 0b100) ∧ (s.cfg.mode = 2 → m3 = 0b110) ∧
    (s.cfg.mode = 3 → m3 = 0b010) ∧ (s.cfg.mode = 4 → m3 = 0b000)

/-- The source's property S5 (R77, R81): for a temperature in 15 to 30 the Orange code word gives it back, the Green one
with MOD8; with SRC_AND8 (R10) the Green one gives the multiple of 8 at or below it. -/
def Obligations.TemperatureReadsBack : Prop :=
  ∀ s : State, TempInRange s.cfg →
    (∃ t, exec .orangeCode s = .next t ∧ (t.codeO.extractLsb' 19 4).toNat + 15 = s.cfg.temp.toNat) ∧
    (∃ t, exec .greenBytes s = .next t ∧
      8 * ((t.gbuf.b1.extractLsb' 6 2).toNat + 1) + (t.gbuf.b1.extractLsb' 3 3).toNat =
        (if s.greenTlow = .mod8 then s.cfg.temp.toNat else s.cfg.temp.toNat / 8 * 8))

/-- R81: with `GREEN_TLOW` = SRC_AND8 the low temperature field is 0 for every temperature; with MOD8 it is T mod 8. -/
def Obligations.GreenTlowOfBothFormulas : Prop :=
  ∀ t : BitVec 8, tlow .srcAnd8 t = 0 ∧ (tlow .mod8 t).toNat = t.toNat % 8

/-- R10, R37: `GREEN_TLOW` is a parameter of the machine: no operation and no step changes it. That it stands in a field of
the state is the model's choice (log 14). -/
def Obligations.GreenTlowIsAParameter : Prop :=
  ∀ s t : State, ((∃ i, exec i s = .next t) ∨ step s = .next t) → t.greenTlow = s.greenTlow

/-- R161: `GREEN_CSUM` writes byte 12, the sum of bytes 0 to 11 modulo 256, and nothing else. -/
def Obligations.GreenChecksumIsTheSum : Prop :=
  ∀ s : State, ∃ c : Byte, exec .greenCsum s = .next { s with gbuf := { s.gbuf with b12 := c } } ∧
    c.toNat = ((s.gbuf.toList.take 12).map BitVec.toNat).sum % 256

/-- R162: `BITREV8` gives the byte with bit i from bit 7 - i, changes no state of the block, and is its own
inverse; `ret` is the model's (log 8). -/
def Obligations.BitReversalOfAByte : Prop :=
  ∀ (s : State) (b : Byte), ∃ r : Byte, exec (.bitrev8 b) s = .next { s with ret := .byte r } ∧
    (∀ i, i < 8 → r.getLsbD i = b.getLsbD (7 - i)) ∧ exec (.bitrev8 r) s = .next { s with ret := .byte b }

/-- R163: `GREEN_REVERSE` gives `RBUF`, every byte with its bits reversed, and keeps `GBUF`. -/
def Obligations.GreenReverseKeepsByteOrder : Prop :=
  ∀ s : State, ∃ r : GBuf, exec .greenReverse s = .next { s with rbuf := r } ∧
    ∀ k i, k < 13 → i < 8 → (r.toList.getD k 0).getLsbD i = (s.gbuf.toList.getD k 0).getLsbD (7 - i)

/-- R164, R166: the packet header is a mark of 9000 and a space of 4500, the packet tail a mark of 560. -/
def Obligations.GreenHeaderAndTail : Prop :=
  ∀ (s : State) (l : List Nat), Holds s.tl l →
    (Fits (addSpace 4500 (addMark 9000 l)) →
      ∃ tl, exec .gPktHeader s = .next { s with tl := tl } ∧ Holds tl (addSpace 4500 (addMark 9000 l)) ∧
        ∀ i, i + 1 < s.tl.len ∨ tl.len ≤ i → Memory.read tl.mem i = Memory.read s.tl.mem i) ∧
    (Fits (addMark 560 l) →
      ∃ tl, exec .gPktTail s = .next { s with tl := tl } ∧ Holds tl (addMark 560 l) ∧
        ∀ i, i ≠ (if s.tl.len % 2 = 1 then s.tl.len - 1 else s.tl.len) →
          Memory.read tl.mem i = Memory.read s.tl.mem i)

/-- R167: on an empty Timeline `GREEN_PACKET` builds the frame of `RBUF`: header, two elements for each of the 104 stream
bits of `RBUF` (most significant bit of each byte first), tail. `REP` is left 0, the one value of its range for Green
(R33), and `BITIDX` with a value the spec does not give (log 7). -/
def Obligations.GreenPacketBuildsTheFrame : Prop :=
  ∀ s : State, s.tl.len = 0 →
    ∃ t, exec .greenPacket s = .next t ∧
      Holds t.tl ([9000, 4500] ++ (bufBits s.rbuf.toList 104).flatMap greenPair ++ [560]) ∧
      t = { s with tl := t.tl, rep := 0, bitIdx := t.bitIdx, draws := t.draws } ∧
      ∀ i, t.tl.len ≤ i → Memory.read t.tl.mem i = Memory.read s.tl.mem i

/-- R55, R172: the frame of every Green command, element by element in terms of the unreversed buffer and of its reversed
copy, draws included: 211 elements of four values, a fixed beginning, the sum 130540 + 1120 * ones.
Accept and build are one `exec` from IDLE (log 11). -/
def Obligations.GreenFrameShape : Prop :=
  ∀ (s : State) (c : Cfg), s.phase = .idle →
    ∃ t l, exec (.encGreen c) s = .next t ∧ Holds t.tl l ∧ l.length = 211 ∧
      l[0]? = some 9000 ∧ l[1]? = some 4500 ∧ l[210]? = some 560 ∧
      (∀ j, j < 104 → l[2 + 2 * j]? = some 560 ∧
        l[3 + 2 * j]? = some (if (t.gbuf.toList.getD (j / 8) 0).getLsbD (j % 8) then 1680 else 560) ∧
        (t.rbuf.toList.getD (j / 8) 0).getLsbD (7 - j % 8) = (t.gbuf.toList.getD (j / 8) 0).getLsbD (j % 8)) ∧
      (∀ x ∈ l, x = 560 ∨ x = 1680 ∨ x = 4500 ∨ x = 9000) ∧
      l.take 18 = [9000, 4500, 560, 1680, 560, 1680, 560, 560, 560, 560, 560, 560, 560, 560, 560, 1680, 560, 1680] ∧
      l.sum = 130540 + 1120 * ones t.gbuf

/-- The source's property S4 (R161, R163): after a Green command `RBUF[12]` is the bit reversal of the sum, modulo 256, of
the unreversed bytes 0 to 11, draws included, and the last sixteen elements before the tail carry it, most significant
bit first. Accept and build are one `exec` from IDLE (log 11). -/
def Obligations.GreenChecksumIsSentReversed : Prop :=
  ∀ (s : State) (c : Cfg), s.phase = .idle →
    ∃ t, exec (.encGreen c) s = .next t ∧
      (∀ i, i < 8 → t.rbuf.b12.getLsbD i =
        (((t.gbuf.toList.take 12).map BitVec.toNat).sum % 256).testBit (7 - i)) ∧
      t.tl.len = 211 ∧
      ∀ i, i < 8 → Memory.read t.tl.mem (194 + 2 * i) = some 560 ∧
        Memory.read t.tl.mem (195 + 2 * i) = some (if t.rbuf.b12.getLsbD (7 - i) then 1680 else 560)

/-! ### Commands -/

/-- R180: in IDLE the command word's fields are latched, all at once, and `PHASE` becomes BUILD, for every word; outside
IDLE the inputs are ignored. -/
def Obligations.CommandAcceptLatchesTheWord : Prop :=
  ∀ (s : State) (cw : CmdWord),
    (s.phase = .idle → exec (.cmdAccept cw) s = .next { s with
      phase := .build
      proto := if cw.toNat / 65536 = 1 then .green else .orange
      cfg := { power := cw.getLsbD 15, mode := BitVec.ofNat 3 (cw.toNat / 4096), fan := BitVec.ofNat 2 (cw.toNat / 1024),
               temp := BitVec.ofNat 8 (cw.toNat / 4), swing := cw.getLsbD 1, sleep := cw.getLsbD 0 } }) ∧
    (s.phase ≠ .idle → exec (.cmdAccept cw) s = .next s)

/-- R181: `ENC_ORANGE` completes for every configuration, from IDLE or when it is the latched command in BUILD: the store
holds the frame of the code of that configuration, `FREQ` is 33, `RPTR` is 0, `PHASE` is DRAIN. The mode field of a
reserved mode is not constrained. That from IDLE the accept is part of `exec` is the model's reading (log 11); `REP`,
`BITIDX` and `draws` are logs 6 and 7. -/
def Obligations.EncOrangeBuildsItsFrame : Prop :=
  ∀ (s : State) (c : Cfg), (s.phase = .idle ∨ (s.phase = .build ∧ s.proto = .orange ∧ s.cfg = c)) →
    ∃ (t : State) (m3 : BitVec 3), exec (.encOrange c) s = .next t ∧ Holds t.tl (orangeFrame t.codeO) ∧
      t.codeO = orangeWord c m3 ∧
      t = { s with phase := .drain, proto := .orange, cfg := c, codeO := t.codeO, tl := t.tl, rptr := 0, freq := 33,
                   rep := t.rep, bitIdx := t.bitIdx, draws := t.draws } ∧
      ∀ i, t.tl.len ≤ i → Memory.read t.tl.mem i = Memory.read s.tl.mem i

/-- R182: `ENC_GREEN` likewise: the store holds the frame of the buffer filled from that configuration and summed, `RBUF`
its bit-reversed copy, `FREQ` is 38, `RPTR` and `REP` are 0 (R33: `REPS_G` is 1), `PHASE` is DRAIN. Logs 6, 7 (for
`BITIDX`) and 11 as for `ENC_ORANGE`. -/
def Obligations.EncGreenBuildsItsFrame : Prop :=
  ∀ (s : State) (c : Cfg), (s.phase = .idle ∨ (s.phase = .build ∧ s.proto = .green ∧ s.cfg = c)) →
    ∃ (t : State) (m3 : BitVec 3) (b1 : Byte), exec (.encGreen c) s = .next t ∧ Holds t.tl (greenFrame t.gbuf) ∧
      t.gbuf = { greenFill s.greenTlow c m3 b1 s.gbuf with b12 := checksum t.gbuf } ∧ t.rbuf = t.gbuf.map bitRev8 ∧
      t = { s with phase := .drain, proto := .green, cfg := c, gbuf := t.gbuf, rbuf := t.rbuf, tl := t.tl, rptr := 0,
                   freq := 38, rep := 0, bitIdx := t.bitIdx, draws := t.draws } ∧
      ∀ i, t.tl.len ≤ i → Memory.read t.tl.mem i = Memory.read s.tl.mem i

/-- R180: a command offered while the block is busy with another, or draining, waits with none of its effect:
log 11's reading. -/
def Obligations.BusyBlockTakesNoCommand : Prop :=
  ∀ (s : State) (c : Cfg),
    (s.phase = .drain → exec (.encOrange c) s = .next s ∧ exec (.encGreen c) s = .next s ∧ exec (.send c) s = .next s) ∧
    (s.phase = .build → ¬ (s.proto = .orange ∧ s.cfg = c) → exec (.encOrange c) s = .next s) ∧
    (s.phase = .build → ¬ (s.proto = .green ∧ s.cfg = c) → exec (.encGreen c) s = .next s) ∧
    (s.phase = .build → exec (.send c) s = .next s)

/-- R36: nothing is carried from one command to the next. Two idle blocks of the same `GREEN_TLOW` (R10)
that differ in everything but the model's counter of draws (log 6) build the same frame from the same configuration.
Accept and build are one `exec` from IDLE (log 11). -/
def Obligations.CommandsReadNothingLeftBehind : Prop :=
  ∀ (s₁ s₂ : State) (c : Cfg), s₁.phase = .idle → s₂.phase = .idle → s₁.draws = s₂.draws →
    s₁.greenTlow = s₂.greenTlow →
    (∃ t₁ t₂ l, exec (.encOrange c) s₁ = .next t₁ ∧ exec (.encOrange c) s₂ = .next t₂ ∧
      Holds t₁.tl l ∧ Holds t₂.tl l ∧ t₁.codeO = t₂.codeO ∧ t₁.freq = t₂.freq ∧ t₁.rptr = t₂.rptr) ∧
    (∃ t₁ t₂ l, exec (.encGreen c) s₁ = .next t₁ ∧ exec (.encGreen c) s₂ = .next t₂ ∧
      Holds t₁.tl l ∧ Holds t₂.tl l ∧ t₁.gbuf = t₂.gbuf ∧ t₁.rbuf = t₂.rbuf ∧ t₁.freq = t₂.freq ∧ t₁.rptr = t₂.rptr)

/-- R183, R185: a transfer hands over element `RPTR` with its sidebands, counts `RPTR` up, and returns the sequencer to
IDLE when the element is the last; nothing else changes. Outside DRAIN nothing is transferred (log 11). The sink record
is the model's (log 3). -/
def Obligations.DrainBeatTransfersOneElement : Prop :=
  (∀ (s : State) (d : Nat), s.phase = .drain → s.rptr < s.tl.len → Memory.read s.tl.mem s.rptr = some d →
    exec .drainBeat s = .next { s with
      sink := s.sink ++ [.beat d (decide (s.rptr = s.tl.len - 1)) s.tl.len s.freq]
      rptr := s.rptr + 1
      phase := if s.rptr = s.tl.len - 1 then .idle else .drain }) ∧
  (∀ s : State, s.phase ≠ .drain → exec .drainBeat s = .next s)

/-- R52: while a frame is drained the port shows its element `RPTR`, its length and its carrier; otherwise only
`out_valid` = 0 and `cmd_ready` have values (log 10). -/
def Obligations.OutputPortShowsTheFrame : Prop :=
  ∀ s : State, Inv s →
    (s.phase = .drain → outValid s = true ∧ cmdReady s = false ∧ outData s = (frameOf s)[s.rptr]? ∧
      outLast s = some (decide (s.rptr + 1 = (frameOf s).length)) ∧ frmCount s = some (frameOf s).length ∧
      frmFreq s = some (if s.proto = .orange then 33 else 38)) ∧
    (s.phase ≠ .drain → outValid s = false ∧ outData s = none ∧ outLast s = none ∧ frmCount s = none ∧
      frmFreq s = none) ∧
    (cmdReady s = true ↔ s.phase = .idle)

/-- R34, R38, R235: a step in DRAIN that is no reset changes `RPTR`, and `PHASE` at the last element, and nothing else of
the block: not the Timeline, not the code registers, not the sidebands, whatever is presented. `RBUF` is a value and no
register (R27): `GREEN_REVERSE` forms it anew from `GBUF`. `ret`, `sink` and `stim` are the model's own (logs 1, 3, 8). -/
def Obligations.FrameIsStableWhileDrained : Prop :=
  ∀ s t : State, s.phase = .drain → fetch s ≠ .run .reset → step s = .next t →
    t = { s with rptr := t.rptr, phase := t.phase, rbuf := t.rbuf, sink := t.sink, ret := t.ret, stim := s.stim.tail } ∧
    (t.rbuf = s.rbuf ∨ t.rbuf = s.gbuf.map bitRev8) ∧
    ((t.rptr = s.rptr ∧ t.phase = .drain ∧ t.sink = s.sink) ∨
     (t.rptr = s.rptr + 1 ∧ s.rptr < s.tl.len ∧ t.phase = if s.rptr + 1 = s.tl.len then .idle else .drain))

/-- R32: at the ports `PHASE` changes only by the four transitions the spec lists. That an edge's pins stand in a list, and
that an empty list is a quiet edge, are the model's choices (log 1). -/
def Obligations.PhaseTransitions : Prop :=
  ∀ s t : State, AtPorts s → step s = .next t → t.phase ≠ s.phase →
    (fetch s = .run .reset ∧ t.phase = .idle) ∨
    (s.phase = .idle ∧ t.phase = .build ∧ ∃ cw, fetch s = .run (.cmdAccept cw)) ∨
    (s.phase = .build ∧ t.phase = .drain ∧ fetch s = .run (commandOf s.proto s.cfg)) ∨
    (s.phase = .drain ∧ t.phase = .idle ∧ fetch s = .run .drainBeat ∧ s.rptr + 1 = s.tl.len)

/-- R62, R185, R235, R238: from the start of DRAIN, edges without reset of which as many are `out_ready` as the Timeline
has elements, the last among them, hand the sink exactly the Timeline, in order, once, at whatever pace, and end in
IDLE. The lists of edges and of transfers are the model's (logs 1, 3). -/
def Obligations.DrainDeliversTheFrame : Prop :=
  ∀ (s : State) (l : List Nat) (ps : List Pins) (p : Pins) (rest : List Stimulus),
    Holds s.tl l → s.phase = .drain → s.rptr = 0 →
    s.stim = (ps ++ [p]).map .pins ++ rest →
    (∀ q ∈ ps ++ [p], q.rst = false) → p.outReady = true → (ps ++ [p]).countP (fun q => q.outReady) = l.length →
    Host.Core.run core (ps.length + 1) s =
      .next { s with stim := rest, phase := .idle, rptr := l.length, sink := s.sink ++ frameBeats l s.freq }

/-- R185, R191, R200: every command word the host presents to an idle block is accepted, built and, with a sink that takes
every element, transmitted: after the accept edge, the build edge and one edge per element the block is idle again and
the sink has got the frame of the command: the frame of the code register, which holds the code of the configuration in
the word, whatever the operands (drawn fields are not constrained, log 6). The list of edges (log 1), the record of what
the sink got (log 3) and that the build takes one edge (log 12) are the model's choices. -/
def Obligations.EveryCommandRunsToTheEnd : Prop :=
  ∀ (s : State) (cw : CmdWord) (p₀ p₁ p : Pins) (rest : List Stimulus), s.phase = .idle →
    p₀.rst = false → p₀.cmdValid = true → p₀.cw = cw → p₁.rst = false → p.rst = false → p.outReady = true →
    ∃ (n : Nat) (t : State), 0 < n ∧ n ≤ 211 ∧
      Host.Core.run core (n + 2)
        { s with stim := .pins p₀ :: .pins p₁ :: (List.replicate n (.pins p) ++ rest) } = .next t ∧
      t.phase = .idle ∧ t.stim = rest ∧ t.proto = cwProto cw ∧ t.cfg = cwCfg cw ∧
      (cw.getLsbD 16 = false → ∃ m3, t.codeO = orangeWord (cwCfg cw) m3) ∧
      (cw.getLsbD 16 = true → ∃ m3 b1,
        t.gbuf = { greenFill s.greenTlow (cwCfg cw) m3 b1 s.gbuf with b12 := checksum t.gbuf }) ∧
      (frameOf t).length = n ∧
      t.sink = s.sink ++ frameBeats (frameOf t) (if cw.getLsbD 16 then 38 else 33)

/-- R190: `SEND` from an idle block transmits the Orange frame at 33 kHz, then comes the host's wait, then the Green frame
of the same configuration at 38 kHz, and the block is idle again; store elements from 211 on stay. The length of the wait
is not constrained (log 9), the drawn fields and `BITIDX` neither (logs 6, 7); the record of what the sink got (log 3) and
that the whole call is one `exec` (log 11) are the model's. -/
def Obligations.SendTransmitsOrangeThenGreen : Prop :=
  ∀ (s : State) (c : Cfg), s.phase = .idle →
    ∃ (t : State) (m3 m3' : BitVec 3) (b1 : Byte), exec (.send c) s = .next t ∧
      t.codeO = orangeWord c m3 ∧ t.gbuf = { greenFill s.greenTlow c m3' b1 s.gbuf with b12 := checksum t.gbuf } ∧
      t.sink = s.sink ++ frameBeats (orangeFrame t.codeO) 33 ++ [.gap Config.gapUs] ++
        frameBeats (greenFrame t.gbuf) 38 ∧
      Holds t.tl (greenFrame t.gbuf) ∧
      t = { s with proto := .green, cfg := c, codeO := t.codeO, gbuf := t.gbuf, rbuf := t.gbuf.map bitRev8, tl := t.tl,
                   rptr := 211, freq := 38, rep := 0, bitIdx := t.bitIdx, sink := t.sink, draws := t.draws } ∧
      ∀ i, 211 ≤ i → Memory.read t.tl.mem i = Memory.read s.tl.mem i
end

