-- ==== Sys2Proof/Laws/Memory.lean ====
section
/-! SUPPORT. The laws of the element store: read after write, a write leaves every other element alone, and every write
keeps the canonical form. -/

namespace Sys2Proof.Machine

@[simp] theorem Memory.read_nil (i : Nat) : Memory.read [] i = none := rfl

theorem Memory.read_write_same (m : Memory) (i v : Nat) : Memory.read (Memory.write m i v) i = some v := by
  induction m with
  | nil => simp [Memory.write, Memory.read]
  | cons c rest ih =>
    obtain ⟨a, x⟩ := c
    simp only [Memory.write]
    split
    · simp [Memory.read]
    · split
      · simp [Memory.read]
      · next hne => simp [Memory.read, Ne.symm hne, ih]

theorem Memory.read_write_other (m : Memory) {i j : Nat} (v : Nat) (h : j ≠ i) :
    Memory.read (Memory.write m i v) j = Memory.read m j := by
  induction m with
  | nil => simp [Memory.write, Memory.read, Ne.symm h]
  | cons c rest ih =>
    obtain ⟨a, x⟩ := c
    simp only [Memory.write]
    split
    · simp [Memory.read, Ne.symm h]
    · split
      · next he => subst he; simp [Memory.read, Ne.symm h]
      · simp [Memory.read, ih]

theorem Memory.read_write (m : Memory) (i j v : Nat) :
    Memory.read (Memory.write m i v) j = if j = i then some v else Memory.read m j := by
  split
  · next h => rw [h, Memory.read_write_same]
  · next h => exact Memory.read_write_other m v h

theorem Memory.write_write_same (m : Memory) (i v v' : Nat) :
    Memory.write (Memory.write m i v) i v' = Memory.write m i v' := by
  induction m with
  | nil => simp [Memory.write]
  | cons c rest ih =>
    obtain ⟨a, x⟩ := c
    simp only [Memory.write]
    split
    · simp [Memory.write]
    · next h1 =>
      split
      · simp [Memory.write]
      · next h2 => simp [Memory.write, h1, h2, ih]

/-- Every entry of a written store is the new one or an old one. -/
theorem Memory.mem_write {m : Memory} {i v : Nat} {e : Nat × Nat} (h : e ∈ Memory.write m i v) :
    e = (i, v) ∨ e ∈ m := by
  induction m with
  | nil => simpa [Memory.write] using h
  | cons c rest ih =>
    obtain ⟨a, x⟩ := c
    simp only [Memory.write] at h
    split at h
    · simpa using h
    · split at h
      · rcases List.mem_cons.1 h with h | h
        · exact .inl h
        · exact .inr (List.mem_cons_of_mem _ h)
      · rcases List.mem_cons.1 h with h | h
        · exact .inr (by simp [h])
        · rcases ih h with h | h
          · exact .inl h
          · exact .inr (List.mem_cons_of_mem _ h)

theorem Memory.wf_write {m : Memory} {i v : Nat} (hm : Memory.wf m = true) (hi : i < Config.depth)
    (hv : v ≤ Config.durMax) : Memory.wf (Memory.write m i v) = true := by
  induction m with
  | nil => simp [Memory.write, Memory.wf, Memory.cellOk, hi, hv]
  | cons c rest ih =>
    obtain ⟨a, x⟩ := c
    simp only [Memory.wf, Bool.and_eq_true, List.all_eq_true, decide_eq_true_eq] at hm
    obtain ⟨⟨hc, hall⟩, hr⟩ := hm
    simp only [Memory.write]
    split
    · next hlt =>
      simp only [Memory.wf, Memory.cellOk, Bool.and_eq_true, List.all_eq_true, decide_eq_true_eq]
      refine ⟨⟨⟨hi, hv⟩, ?_⟩, ⟨by simpa [Memory.cellOk] using hc, hall⟩, hr⟩
      intro e he
      rcases List.mem_cons.1 he with rfl | he
      · exact hlt
      · exact Nat.lt_trans hlt (hall e he)
    · next hge =>
      split
      · next he =>
        subst he
        simp only [Memory.wf, Memory.cellOk, Bool.and_eq_true, List.all_eq_true, decide_eq_true_eq]
        exact ⟨⟨⟨hi, hv⟩, hall⟩, hr⟩
      · next hne =>
        simp only [Memory.wf, Bool.and_eq_true, List.all_eq_true, decide_eq_true_eq]
        refine ⟨⟨hc, ?_⟩, ih hr⟩
        intro e he
        rcases Memory.mem_write he with rfl | he
        · exact Nat.lt_of_le_of_ne (Nat.le_of_not_lt hge) (Ne.symm hne)
        · exact hall e he

theorem Memory.wf_writeFrom {l : List Nat} {m : Memory} {i : Nat} (hm : Memory.wf m = true)
    (hi : i + l.length ≤ Config.depth) (hl : ∀ x ∈ l, x ≤ Config.durMax) :
    Memory.wf (Memory.writeFrom m i l) = true := by
  induction l generalizing m i with
  | nil => exact hm
  | cons d rest ih =>
    simp only [List.length_cons] at hi
    exact ih (Memory.wf_write hm (by omega) (hl d (by simp))) (by omega) (fun x hx => hl x (by simp [hx]))

theorem Memory.read_writeFrom (l : List Nat) (m : Memory) (i j : Nat) :
    Memory.read (Memory.writeFrom m i l) j =
      if i ≤ j ∧ j < i + l.length then l[j - i]? else Memory.read m j := by
  induction l generalizing m i with
  | nil => simp [Memory.writeFrom]
  | cons d rest ih =>
    simp only [Memory.writeFrom, ih, Memory.read_write, List.length_cons]
    by_cases h0 : j = i
    · subst h0; simp
    · by_cases h1 : i + 1 ≤ j ∧ j < i + 1 + rest.length
      · have h2 : i ≤ j ∧ j < i + (rest.length + 1) := by omega
        have h3 : j - i = (j - (i + 1)) + 1 := by omega
        simp [h1, h2, h3]
      · have h2 : ¬ (i ≤ j ∧ j < i + (rest.length + 1)) := by omega
        rw [if_neg h1, if_neg h2, if_neg h0]

/-- The store after reset has the canonical form. -/
theorem Memory.wf_reset : Memory.wf State.reset.tl.mem = true := rfl

end Sys2Proof.Machine
end

