-- ==== Sys2Proof/Laws/State.lean ====
section
/-! SUPPORT. One lemma per field per update of the state, each true by definition, so that no later proof unfolds a
record update; and the same for the Timeline's `clear` and the register writes of a whole build. -/

namespace Sys2Proof.Machine

/-! ### `State.withTL` -/

@[simp] theorem State.withTL_phase (s : State) (tl : TL) : (s.withTL tl).phase = s.phase := rfl
@[simp] theorem State.withTL_proto (s : State) (tl : TL) : (s.withTL tl).proto = s.proto := rfl
@[simp] theorem State.withTL_cfg (s : State) (tl : TL) : (s.withTL tl).cfg = s.cfg := rfl
@[simp] theorem State.withTL_codeO (s : State) (tl : TL) : (s.withTL tl).codeO = s.codeO := rfl
@[simp] theorem State.withTL_gbuf (s : State) (tl : TL) : (s.withTL tl).gbuf = s.gbuf := rfl
@[simp] theorem State.withTL_rbuf (s : State) (tl : TL) : (s.withTL tl).rbuf = s.rbuf := rfl
@[simp] theorem State.withTL_tl (s : State) (tl : TL) : (s.withTL tl).tl = tl := rfl
@[simp] theorem State.withTL_rptr (s : State) (tl : TL) : (s.withTL tl).rptr = s.rptr := rfl
@[simp] theorem State.withTL_freq (s : State) (tl : TL) : (s.withTL tl).freq = s.freq := rfl
@[simp] theorem State.withTL_rep (s : State) (tl : TL) : (s.withTL tl).rep = s.rep := rfl
@[simp] theorem State.withTL_bitIdx (s : State) (tl : TL) : (s.withTL tl).bitIdx = s.bitIdx := rfl
@[simp] theorem State.withTL_greenTlow (s : State) (tl : TL) : (s.withTL tl).greenTlow = s.greenTlow := rfl
@[simp] theorem State.withTL_stim (s : State) (tl : TL) : (s.withTL tl).stim = s.stim := rfl
@[simp] theorem State.withTL_sink (s : State) (tl : TL) : (s.withTL tl).sink = s.sink := rfl
@[simp] theorem State.withTL_ret (s : State) (tl : TL) : (s.withTL tl).ret = s.ret := rfl
@[simp] theorem State.withTL_draws (s : State) (tl : TL) : (s.withTL tl).draws = s.draws := rfl

/-! ### `State.latch` -/

@[simp] theorem State.latch_phase (s : State) (p : Proto) (c : Cfg) : (s.latch p c).phase = s.phase := rfl
@[simp] theorem State.latch_proto (s : State) (p : Proto) (c : Cfg) : (s.latch p c).proto = p := rfl
@[simp] theorem State.latch_cfg (s : State) (p : Proto) (c : Cfg) : (s.latch p c).cfg = c := rfl
@[simp] theorem State.latch_codeO (s : State) (p : Proto) (c : Cfg) : (s.latch p c).codeO = s.codeO := rfl
@[simp] theorem State.latch_gbuf (s : State) (p : Proto) (c : Cfg) : (s.latch p c).gbuf = s.gbuf := rfl
@[simp] theorem State.latch_rbuf (s : State) (p : Proto) (c : Cfg) : (s.latch p c).rbuf = s.rbuf := rfl
@[simp] theorem State.latch_tl (s : State) (p : Proto) (c : Cfg) : (s.latch p c).tl = s.tl := rfl
@[simp] theorem State.latch_rptr (s : State) (p : Proto) (c : Cfg) : (s.latch p c).rptr = s.rptr := rfl
@[simp] theorem State.latch_freq (s : State) (p : Proto) (c : Cfg) : (s.latch p c).freq = s.freq := rfl
@[simp] theorem State.latch_rep (s : State) (p : Proto) (c : Cfg) : (s.latch p c).rep = s.rep := rfl
@[simp] theorem State.latch_bitIdx (s : State) (p : Proto) (c : Cfg) : (s.latch p c).bitIdx = s.bitIdx := rfl
@[simp] theorem State.latch_greenTlow (s : State) (p : Proto) (c : Cfg) : (s.latch p c).greenTlow = s.greenTlow := rfl
@[simp] theorem State.latch_stim (s : State) (p : Proto) (c : Cfg) : (s.latch p c).stim = s.stim := rfl
@[simp] theorem State.latch_sink (s : State) (p : Proto) (c : Cfg) : (s.latch p c).sink = s.sink := rfl
@[simp] theorem State.latch_ret (s : State) (p : Proto) (c : Cfg) : (s.latch p c).ret = s.ret := rfl
@[simp] theorem State.latch_draws (s : State) (p : Proto) (c : Cfg) : (s.latch p c).draws = s.draws := rfl

/-! ### `State.tick` -/

@[simp] theorem State.tick_phase (s : State) : (s.tick).phase = s.phase := rfl
@[simp] theorem State.tick_proto (s : State) : (s.tick).proto = s.proto := rfl
@[simp] theorem State.tick_cfg (s : State) : (s.tick).cfg = s.cfg := rfl
@[simp] theorem State.tick_codeO (s : State) : (s.tick).codeO = s.codeO := rfl
@[simp] theorem State.tick_gbuf (s : State) : (s.tick).gbuf = s.gbuf := rfl
@[simp] theorem State.tick_rbuf (s : State) : (s.tick).rbuf = s.rbuf := rfl
@[simp] theorem State.tick_tl (s : State) : (s.tick).tl = s.tl := rfl
@[simp] theorem State.tick_rptr (s : State) : (s.tick).rptr = s.rptr := rfl
@[simp] theorem State.tick_freq (s : State) : (s.tick).freq = s.freq := rfl
@[simp] theorem State.tick_rep (s : State) : (s.tick).rep = s.rep := rfl
@[simp] theorem State.tick_bitIdx (s : State) : (s.tick).bitIdx = s.bitIdx := rfl
@[simp] theorem State.tick_greenTlow (s : State) : (s.tick).greenTlow = s.greenTlow := rfl
@[simp] theorem State.tick_stim (s : State) : (s.tick).stim = s.stim := rfl
@[simp] theorem State.tick_sink (s : State) : (s.tick).sink = s.sink := rfl
@[simp] theorem State.tick_ret (s : State) : (s.tick).ret = s.ret := rfl
@[simp] theorem State.tick_draws (s : State) : (s.tick).draws = s.draws + 1 := rfl

/-! ### `State.leaveLoops` -/

@[simp] theorem State.leaveLoops_phase (s : State) (p : Proto) : (s.leaveLoops p).phase = s.phase := rfl
@[simp] theorem State.leaveLoops_proto (s : State) (p : Proto) : (s.leaveLoops p).proto = s.proto := rfl
@[simp] theorem State.leaveLoops_cfg (s : State) (p : Proto) : (s.leaveLoops p).cfg = s.cfg := rfl
@[simp] theorem State.leaveLoops_codeO (s : State) (p : Proto) : (s.leaveLoops p).codeO = s.codeO := rfl
@[simp] theorem State.leaveLoops_gbuf (s : State) (p : Proto) : (s.leaveLoops p).gbuf = s.gbuf := rfl
@[simp] theorem State.leaveLoops_rbuf (s : State) (p : Proto) : (s.leaveLoops p).rbuf = s.rbuf := rfl
@[simp] theorem State.leaveLoops_tl (s : State) (p : Proto) : (s.leaveLoops p).tl = s.tl := rfl
@[simp] theorem State.leaveLoops_rptr (s : State) (p : Proto) : (s.leaveLoops p).rptr = s.rptr := rfl
@[simp] theorem State.leaveLoops_freq (s : State) (p : Proto) : (s.leaveLoops p).freq = s.freq := rfl
@[simp] theorem State.leaveLoops_rep (s : State) (p : Proto) : (s.leaveLoops p).rep = repAfter p s.draws := rfl
@[simp] theorem State.leaveLoops_bitIdx (s : State) (p : Proto) : (s.leaveLoops p).bitIdx = Config.bitIdxLeft s.draws := rfl
@[simp] theorem State.leaveLoops_greenTlow (s : State) (p : Proto) : (s.leaveLoops p).greenTlow = s.greenTlow := rfl
@[simp] theorem State.leaveLoops_stim (s : State) (p : Proto) : (s.leaveLoops p).stim = s.stim := rfl
@[simp] theorem State.leaveLoops_sink (s : State) (p : Proto) : (s.leaveLoops p).sink = s.sink := rfl
@[simp] theorem State.leaveLoops_ret (s : State) (p : Proto) : (s.leaveLoops p).ret = s.ret := rfl
@[simp] theorem State.leaveLoops_draws (s : State) (p : Proto) : (s.leaveLoops p).draws = s.draws + 1 := rfl

/-! ### `State.finishBuild` -/

@[simp] theorem State.finishBuild_phase (s : State) (p : Proto) : (s.finishBuild p).phase = .drain := rfl
@[simp] theorem State.finishBuild_proto (s : State) (p : Proto) : (s.finishBuild p).proto = s.proto := rfl
@[simp] theorem State.finishBuild_cfg (s : State) (p : Proto) : (s.finishBuild p).cfg = s.cfg := rfl
@[simp] theorem State.finishBuild_codeO (s : State) (p : Proto) : (s.finishBuild p).codeO = s.codeO := rfl
@[simp] theorem State.finishBuild_gbuf (s : State) (p : Proto) : (s.finishBuild p).gbuf = s.gbuf := rfl
@[simp] theorem State.finishBuild_rbuf (s : State) (p : Proto) : (s.finishBuild p).rbuf = s.rbuf := rfl
@[simp] theorem State.finishBuild_tl (s : State) (p : Proto) : (s.finishBuild p).tl = s.tl := rfl
@[simp] theorem State.finishBuild_rptr (s : State) (p : Proto) : (s.finishBuild p).rptr = 0 := rfl
@[simp] theorem State.finishBuild_freq (s : State) (p : Proto) : (s.finishBuild p).freq = (Config.row p).freq := rfl
@[simp] theorem State.finishBuild_rep (s : State) (p : Proto) : (s.finishBuild p).rep = s.rep := rfl
@[simp] theorem State.finishBuild_bitIdx (s : State) (p : Proto) : (s.finishBuild p).bitIdx = s.bitIdx := rfl
@[simp] theorem State.finishBuild_greenTlow (s : State) (p : Proto) : (s.finishBuild p).greenTlow = s.greenTlow := rfl
@[simp] theorem State.finishBuild_stim (s : State) (p : Proto) : (s.finishBuild p).stim = s.stim := rfl
@[simp] theorem State.finishBuild_sink (s : State) (p : Proto) : (s.finishBuild p).sink = s.sink := rfl
@[simp] theorem State.finishBuild_ret (s : State) (p : Proto) : (s.finishBuild p).ret = s.ret := rfl
@[simp] theorem State.finishBuild_draws (s : State) (p : Proto) : (s.finishBuild p).draws = s.draws := rfl

/-! ### `State.assembleOrange` -/

@[simp] theorem State.assembleOrange_phase (s : State) : (s.assembleOrange).phase = s.phase := rfl
@[simp] theorem State.assembleOrange_proto (s : State) : (s.assembleOrange).proto = s.proto := rfl
@[simp] theorem State.assembleOrange_cfg (s : State) : (s.assembleOrange).cfg = s.cfg := rfl
@[simp] theorem State.assembleOrange_codeO (s : State) : (s.assembleOrange).codeO = orangeWord s.cfg (Config.any3 s.draws) := rfl
@[simp] theorem State.assembleOrange_gbuf (s : State) : (s.assembleOrange).gbuf = s.gbuf := rfl
@[simp] theorem State.assembleOrange_rbuf (s : State) : (s.assembleOrange).rbuf = s.rbuf := rfl
@[simp] theorem State.assembleOrange_tl (s : State) : (s.assembleOrange).tl = s.tl := rfl
@[simp] theorem State.assembleOrange_rptr (s : State) : (s.assembleOrange).rptr = s.rptr := rfl
@[simp] theorem State.assembleOrange_freq (s : State) : (s.assembleOrange).freq = s.freq := rfl
@[simp] theorem State.assembleOrange_rep (s : State) : (s.assembleOrange).rep = s.rep := rfl
@[simp] theorem State.assembleOrange_bitIdx (s : State) : (s.assembleOrange).bitIdx = s.bitIdx := rfl
@[simp] theorem State.assembleOrange_greenTlow (s : State) : (s.assembleOrange).greenTlow = s.greenTlow := rfl
@[simp] theorem State.assembleOrange_stim (s : State) : (s.assembleOrange).stim = s.stim := rfl
@[simp] theorem State.assembleOrange_sink (s : State) : (s.assembleOrange).sink = s.sink := rfl
@[simp] theorem State.assembleOrange_ret (s : State) : (s.assembleOrange).ret = s.ret := rfl
@[simp] theorem State.assembleOrange_draws (s : State) : (s.assembleOrange).draws = s.draws + 1 := rfl

/-! ### `State.assembleGreen` -/

@[simp] theorem State.assembleGreen_phase (s : State) : (s.assembleGreen).phase = s.phase := rfl
@[simp] theorem State.assembleGreen_proto (s : State) : (s.assembleGreen).proto = s.proto := rfl
@[simp] theorem State.assembleGreen_cfg (s : State) : (s.assembleGreen).cfg = s.cfg := rfl
@[simp] theorem State.assembleGreen_codeO (s : State) : (s.assembleGreen).codeO = s.codeO := rfl
@[simp] theorem State.assembleGreen_gbuf (s : State) : (s.assembleGreen).gbuf = greenFill s.greenTlow s.cfg (Config.any3 s.draws) (Config.any8 s.draws) s.gbuf := rfl
@[simp] theorem State.assembleGreen_rbuf (s : State) : (s.assembleGreen).rbuf = s.rbuf := rfl
@[simp] theorem State.assembleGreen_tl (s : State) : (s.assembleGreen).tl = s.tl := rfl
@[simp] theorem State.assembleGreen_rptr (s : State) : (s.assembleGreen).rptr = s.rptr := rfl
@[simp] theorem State.assembleGreen_freq (s : State) : (s.assembleGreen).freq = s.freq := rfl
@[simp] theorem State.assembleGreen_rep (s : State) : (s.assembleGreen).rep = s.rep := rfl
@[simp] theorem State.assembleGreen_bitIdx (s : State) : (s.assembleGreen).bitIdx = s.bitIdx := rfl
@[simp] theorem State.assembleGreen_greenTlow (s : State) : (s.assembleGreen).greenTlow = s.greenTlow := rfl
@[simp] theorem State.assembleGreen_stim (s : State) : (s.assembleGreen).stim = s.stim := rfl
@[simp] theorem State.assembleGreen_sink (s : State) : (s.assembleGreen).sink = s.sink := rfl
@[simp] theorem State.assembleGreen_ret (s : State) : (s.assembleGreen).ret = s.ret := rfl
@[simp] theorem State.assembleGreen_draws (s : State) : (s.assembleGreen).draws = s.draws + 1 := rfl

/-! ### `State.sumGreen` -/

@[simp] theorem State.sumGreen_phase (s : State) : (s.sumGreen).phase = s.phase := rfl
@[simp] theorem State.sumGreen_proto (s : State) : (s.sumGreen).proto = s.proto := rfl
@[simp] theorem State.sumGreen_cfg (s : State) : (s.sumGreen).cfg = s.cfg := rfl
@[simp] theorem State.sumGreen_codeO (s : State) : (s.sumGreen).codeO = s.codeO := rfl
@[simp] theorem State.sumGreen_gbuf (s : State) : (s.sumGreen).gbuf = { s.gbuf with b12 := checksum s.gbuf } := rfl
@[simp] theorem State.sumGreen_rbuf (s : State) : (s.sumGreen).rbuf = s.rbuf := rfl
@[simp] theorem State.sumGreen_tl (s : State) : (s.sumGreen).tl = s.tl := rfl
@[simp] theorem State.sumGreen_rptr (s : State) : (s.sumGreen).rptr = s.rptr := rfl
@[simp] theorem State.sumGreen_freq (s : State) : (s.sumGreen).freq = s.freq := rfl
@[simp] theorem State.sumGreen_rep (s : State) : (s.sumGreen).rep = s.rep := rfl
@[simp] theorem State.sumGreen_bitIdx (s : State) : (s.sumGreen).bitIdx = s.bitIdx := rfl
@[simp] theorem State.sumGreen_greenTlow (s : State) : (s.sumGreen).greenTlow = s.greenTlow := rfl
@[simp] theorem State.sumGreen_stim (s : State) : (s.sumGreen).stim = s.stim := rfl
@[simp] theorem State.sumGreen_sink (s : State) : (s.sumGreen).sink = s.sink := rfl
@[simp] theorem State.sumGreen_ret (s : State) : (s.sumGreen).ret = s.ret := rfl
@[simp] theorem State.sumGreen_draws (s : State) : (s.sumGreen).draws = s.draws := rfl

/-! ### `State.reverseGreen` -/

@[simp] theorem State.reverseGreen_phase (s : State) : (s.reverseGreen).phase = s.phase := rfl
@[simp] theorem State.reverseGreen_proto (s : State) : (s.reverseGreen).proto = s.proto := rfl
@[simp] theorem State.reverseGreen_cfg (s : State) : (s.reverseGreen).cfg = s.cfg := rfl
@[simp] theorem State.reverseGreen_codeO (s : State) : (s.reverseGreen).codeO = s.codeO := rfl
@[simp] theorem State.reverseGreen_gbuf (s : State) : (s.reverseGreen).gbuf = s.gbuf := rfl
@[simp] theorem State.reverseGreen_rbuf (s : State) : (s.reverseGreen).rbuf = s.gbuf.map bitRev8 := rfl
@[simp] theorem State.reverseGreen_tl (s : State) : (s.reverseGreen).tl = s.tl := rfl
@[simp] theorem State.reverseGreen_rptr (s : State) : (s.reverseGreen).rptr = s.rptr := rfl
@[simp] theorem State.reverseGreen_freq (s : State) : (s.reverseGreen).freq = s.freq := rfl
@[simp] theorem State.reverseGreen_rep (s : State) : (s.reverseGreen).rep = s.rep := rfl
@[simp] theorem State.reverseGreen_bitIdx (s : State) : (s.reverseGreen).bitIdx = s.bitIdx := rfl
@[simp] theorem State.reverseGreen_greenTlow (s : State) : (s.reverseGreen).greenTlow = s.greenTlow := rfl
@[simp] theorem State.reverseGreen_stim (s : State) : (s.reverseGreen).stim = s.stim := rfl
@[simp] theorem State.reverseGreen_sink (s : State) : (s.reverseGreen).sink = s.sink := rfl
@[simp] theorem State.reverseGreen_ret (s : State) : (s.reverseGreen).ret = s.ret := rfl
@[simp] theorem State.reverseGreen_draws (s : State) : (s.reverseGreen).draws = s.draws := rfl

/-! ### `State.accept` -/

@[simp] theorem State.accept_phase (s : State) (p : Proto) (c : Cfg) : (s.accept p c).phase = .build := rfl
@[simp] theorem State.accept_proto (s : State) (p : Proto) (c : Cfg) : (s.accept p c).proto = p := rfl
@[simp] theorem State.accept_cfg (s : State) (p : Proto) (c : Cfg) : (s.accept p c).cfg = c := rfl
@[simp] theorem State.accept_codeO (s : State) (p : Proto) (c : Cfg) : (s.accept p c).codeO = s.codeO := rfl
@[simp] theorem State.accept_gbuf (s : State) (p : Proto) (c : Cfg) : (s.accept p c).gbuf = s.gbuf := rfl
@[simp] theorem State.accept_rbuf (s : State) (p : Proto) (c : Cfg) : (s.accept p c).rbuf = s.rbuf := rfl
@[simp] theorem State.accept_tl (s : State) (p : Proto) (c : Cfg) : (s.accept p c).tl = s.tl := rfl
@[simp] theorem State.accept_rptr (s : State) (p : Proto) (c : Cfg) : (s.accept p c).rptr = s.rptr := rfl
@[simp] theorem State.accept_freq (s : State) (p : Proto) (c : Cfg) : (s.accept p c).freq = s.freq := rfl
@[simp] theorem State.accept_rep (s : State) (p : Proto) (c : Cfg) : (s.accept p c).rep = s.rep := rfl
@[simp] theorem State.accept_bitIdx (s : State) (p : Proto) (c : Cfg) : (s.accept p c).bitIdx = s.bitIdx := rfl
@[simp] theorem State.accept_greenTlow (s : State) (p : Proto) (c : Cfg) : (s.accept p c).greenTlow = s.greenTlow := rfl
@[simp] theorem State.accept_stim (s : State) (p : Proto) (c : Cfg) : (s.accept p c).stim = s.stim := rfl
@[simp] theorem State.accept_sink (s : State) (p : Proto) (c : Cfg) : (s.accept p c).sink = s.sink := rfl
@[simp] theorem State.accept_ret (s : State) (p : Proto) (c : Cfg) : (s.accept p c).ret = s.ret := rfl
@[simp] theorem State.accept_draws (s : State) (p : Proto) (c : Cfg) : (s.accept p c).draws = s.draws := rfl

/-! ### `State.hostWait` -/

@[simp] theorem State.hostWait_phase (s : State) (us : Nat) : (s.hostWait us).phase = s.phase := rfl
@[simp] theorem State.hostWait_proto (s : State) (us : Nat) : (s.hostWait us).proto = s.proto := rfl
@[simp] theorem State.hostWait_cfg (s : State) (us : Nat) : (s.hostWait us).cfg = s.cfg := rfl
@[simp] theorem State.hostWait_codeO (s : State) (us : Nat) : (s.hostWait us).codeO = s.codeO := rfl
@[simp] theorem State.hostWait_gbuf (s : State) (us : Nat) : (s.hostWait us).gbuf = s.gbuf := rfl
@[simp] theorem State.hostWait_rbuf (s : State) (us : Nat) : (s.hostWait us).rbuf = s.rbuf := rfl
@[simp] theorem State.hostWait_tl (s : State) (us : Nat) : (s.hostWait us).tl = s.tl := rfl
@[simp] theorem State.hostWait_rptr (s : State) (us : Nat) : (s.hostWait us).rptr = s.rptr := rfl
@[simp] theorem State.hostWait_freq (s : State) (us : Nat) : (s.hostWait us).freq = s.freq := rfl
@[simp] theorem State.hostWait_rep (s : State) (us : Nat) : (s.hostWait us).rep = s.rep := rfl
@[simp] theorem State.hostWait_bitIdx (s : State) (us : Nat) : (s.hostWait us).bitIdx = s.bitIdx := rfl
@[simp] theorem State.hostWait_greenTlow (s : State) (us : Nat) : (s.hostWait us).greenTlow = s.greenTlow := rfl
@[simp] theorem State.hostWait_stim (s : State) (us : Nat) : (s.hostWait us).stim = s.stim := rfl
@[simp] theorem State.hostWait_sink (s : State) (us : Nat) : (s.hostWait us).sink = s.sink ++ [.gap us] := rfl
@[simp] theorem State.hostWait_ret (s : State) (us : Nat) : (s.hostWait us).ret = s.ret := rfl
@[simp] theorem State.hostWait_draws (s : State) (us : Nat) : (s.hostWait us).draws = s.draws := rfl

/-! ### `State.resetPin` -/

@[simp] theorem State.resetPin_phase (s : State) : (s.resetPin).phase = .idle := rfl
@[simp] theorem State.resetPin_proto (s : State) : (s.resetPin).proto = s.proto := rfl
@[simp] theorem State.resetPin_cfg (s : State) : (s.resetPin).cfg = s.cfg := rfl
@[simp] theorem State.resetPin_codeO (s : State) : (s.resetPin).codeO = s.codeO := rfl
@[simp] theorem State.resetPin_gbuf (s : State) : (s.resetPin).gbuf = s.gbuf := rfl
@[simp] theorem State.resetPin_rbuf (s : State) : (s.resetPin).rbuf = s.rbuf := rfl
@[simp] theorem State.resetPin_tl (s : State) : (s.resetPin).tl = s.tl.clear := rfl
@[simp] theorem State.resetPin_rptr (s : State) : (s.resetPin).rptr = 0 := rfl
@[simp] theorem State.resetPin_freq (s : State) : (s.resetPin).freq = s.freq := rfl
@[simp] theorem State.resetPin_rep (s : State) : (s.resetPin).rep = 0 := rfl
@[simp] theorem State.resetPin_bitIdx (s : State) : (s.resetPin).bitIdx = 0 := rfl
@[simp] theorem State.resetPin_greenTlow (s : State) : (s.resetPin).greenTlow = s.greenTlow := rfl
@[simp] theorem State.resetPin_stim (s : State) : (s.resetPin).stim = s.stim := rfl
@[simp] theorem State.resetPin_sink (s : State) : (s.resetPin).sink = s.sink := rfl
@[simp] theorem State.resetPin_ret (s : State) : (s.resetPin).ret = s.ret := rfl
@[simp] theorem State.resetPin_draws (s : State) : (s.resetPin).draws = s.draws := rfl

/-! ### `State.popStim` -/

@[simp] theorem State.popStim_phase (s : State) : (s.popStim).phase = s.phase := rfl
@[simp] theorem State.popStim_proto (s : State) : (s.popStim).proto = s.proto := rfl
@[simp] theorem State.popStim_cfg (s : State) : (s.popStim).cfg = s.cfg := rfl
@[simp] theorem State.popStim_codeO (s : State) : (s.popStim).codeO = s.codeO := rfl
@[simp] theorem State.popStim_gbuf (s : State) : (s.popStim).gbuf = s.gbuf := rfl
@[simp] theorem State.popStim_rbuf (s : State) : (s.popStim).rbuf = s.rbuf := rfl
@[simp] theorem State.popStim_tl (s : State) : (s.popStim).tl = s.tl := rfl
@[simp] theorem State.popStim_rptr (s : State) : (s.popStim).rptr = s.rptr := rfl
@[simp] theorem State.popStim_freq (s : State) : (s.popStim).freq = s.freq := rfl
@[simp] theorem State.popStim_rep (s : State) : (s.popStim).rep = s.rep := rfl
@[simp] theorem State.popStim_bitIdx (s : State) : (s.popStim).bitIdx = s.bitIdx := rfl
@[simp] theorem State.popStim_greenTlow (s : State) : (s.popStim).greenTlow = s.greenTlow := rfl
@[simp] theorem State.popStim_stim (s : State) : (s.popStim).stim = s.stim.tail := rfl
@[simp] theorem State.popStim_sink (s : State) : (s.popStim).sink = s.sink := rfl
@[simp] theorem State.popStim_ret (s : State) : (s.popStim).ret = s.ret := rfl
@[simp] theorem State.popStim_draws (s : State) : (s.popStim).draws = s.draws := rfl

/-! ### `State.withFetchWord` -/

@[simp] theorem State.withFetchWord_phase (s : State) (nbits w : Nat) : (s.withFetchWord nbits w).phase = .idle := rfl
@[simp] theorem State.withFetchWord_proto (s : State) (nbits w : Nat) : (s.withFetchWord nbits w).proto = s.proto := rfl
@[simp] theorem State.withFetchWord_cfg (s : State) (nbits w : Nat) : (s.withFetchWord nbits w).cfg = s.cfg := rfl
@[simp] theorem State.withFetchWord_codeO (s : State) (nbits w : Nat) : (s.withFetchWord nbits w).codeO = s.codeO := rfl
@[simp] theorem State.withFetchWord_gbuf (s : State) (nbits w : Nat) : (s.withFetchWord nbits w).gbuf = s.gbuf := rfl
@[simp] theorem State.withFetchWord_rbuf (s : State) (nbits w : Nat) : (s.withFetchWord nbits w).rbuf = s.rbuf := rfl
@[simp] theorem State.withFetchWord_tl (s : State) (nbits w : Nat) : (s.withFetchWord nbits w).tl = s.tl := rfl
@[simp] theorem State.withFetchWord_rptr (s : State) (nbits w : Nat) : (s.withFetchWord nbits w).rptr = s.rptr := rfl
@[simp] theorem State.withFetchWord_freq (s : State) (nbits w : Nat) : (s.withFetchWord nbits w).freq = s.freq := rfl
@[simp] theorem State.withFetchWord_rep (s : State) (nbits w : Nat) : (s.withFetchWord nbits w).rep = s.rep := rfl
@[simp] theorem State.withFetchWord_bitIdx (s : State) (nbits w : Nat) : (s.withFetchWord nbits w).bitIdx = s.bitIdx := rfl
@[simp] theorem State.withFetchWord_greenTlow (s : State) (nbits w : Nat) : (s.withFetchWord nbits w).greenTlow = s.greenTlow := rfl
@[simp] theorem State.withFetchWord_stim (s : State) (nbits w : Nat) : (s.withFetchWord nbits w).stim = .word (tableFormat nbits) w :: s.stim := rfl
@[simp] theorem State.withFetchWord_sink (s : State) (nbits w : Nat) : (s.withFetchWord nbits w).sink = s.sink := rfl
@[simp] theorem State.withFetchWord_ret (s : State) (nbits w : Nat) : (s.withFetchWord nbits w).ret = s.ret := rfl
@[simp] theorem State.withFetchWord_draws (s : State) (nbits w : Nat) : (s.withFetchWord nbits w).draws = s.draws := rfl

/-! ### `TL.clear` -/

@[simp] theorem TL.clear_len (tl : TL) : tl.clear.len = 0 := rfl
@[simp] theorem TL.clear_mem (tl : TL) : tl.clear.mem = tl.mem := rfl

/-! ### `GBuf.map` -/

@[simp] theorem GBuf.map_b0 (f : Byte → Byte) (g : GBuf) : (g.map f).b0 = f g.b0 := rfl
@[simp] theorem GBuf.map_b1 (f : Byte → Byte) (g : GBuf) : (g.map f).b1 = f g.b1 := rfl
@[simp] theorem GBuf.map_b2 (f : Byte → Byte) (g : GBuf) : (g.map f).b2 = f g.b2 := rfl
@[simp] theorem GBuf.map_b3 (f : Byte → Byte) (g : GBuf) : (g.map f).b3 = f g.b3 := rfl
@[simp] theorem GBuf.map_b4 (f : Byte → Byte) (g : GBuf) : (g.map f).b4 = f g.b4 := rfl
@[simp] theorem GBuf.map_b5 (f : Byte → Byte) (g : GBuf) : (g.map f).b5 = f g.b5 := rfl
@[simp] theorem GBuf.map_b6 (f : Byte → Byte) (g : GBuf) : (g.map f).b6 = f g.b6 := rfl
@[simp] theorem GBuf.map_b7 (f : Byte → Byte) (g : GBuf) : (g.map f).b7 = f g.b7 := rfl
@[simp] theorem GBuf.map_b8 (f : Byte → Byte) (g : GBuf) : (g.map f).b8 = f g.b8 := rfl
@[simp] theorem GBuf.map_b9 (f : Byte → Byte) (g : GBuf) : (g.map f).b9 = f g.b9 := rfl
@[simp] theorem GBuf.map_b10 (f : Byte → Byte) (g : GBuf) : (g.map f).b10 = f g.b10 := rfl
@[simp] theorem GBuf.map_b11 (f : Byte → Byte) (g : GBuf) : (g.map f).b11 = f g.b11 := rfl
@[simp] theorem GBuf.map_b12 (f : Byte → Byte) (g : GBuf) : (g.map f).b12 = f g.b12 := rfl

end Sys2Proof.Machine
end

