-- ==== Sys2Proof/Laws/Timeline.lean ====
section
/-! SUPPORT. What each Timeline operation can do, said once: the exact conditions under which it answers a Timeline, and
which. Then the same in terms of the list the store holds. -/

namespace Sys2Proof.Machine

open Sys2Proof.Safety

/-! ### Sequencing and lifting -/

@[simp] theorem bind_ok {ε α β : Type} (a : α) (f : α → Except ε β) : (Except.ok a : Except ε α).bind f = f a := rfl

@[simp] theorem bind_error {ε α β : Type} (e : ε) (f : α → Except ε β) :
    (Except.error e : Except ε α).bind f = .error e := rfl

theorem bind_eq_ok {ε α β : Type} {x : Except ε α} {f : α → Except ε β} {b : β} :
    x.bind f = .ok b ↔ ∃ a, x = .ok a ∧ f a = .ok b := by
  cases x with
  | error e => simp [Except.bind]
  | ok a => simp [Except.bind]

theorem bind_assoc {ε α β γ : Type} (x : Except ε α) (f : α → Except ε β) (g : β → Except ε γ) :
    (x.bind f).bind g = x.bind (fun a => (f a).bind g) := by
  cases x <;> rfl

@[simp] theorem map_ok {ε α β : Type} (a : α) (f : α → β) : (Except.ok a : Except ε α).map f = .ok (f a) := rfl

@[simp] theorem map_error {ε α β : Type} (e : ε) (f : α → β) :
    (Except.error e : Except ε α).map f = .error e := rfl

theorem map_eq_ok {ε α β : Type} {x : Except ε α} {f : α → β} {b : β} :
    x.map f = .ok b ↔ ∃ a, x = .ok a ∧ f a = b := by
  cases x with
  | error e => simp [Except.map]
  | ok a => simp [Except.map]

@[simp] theorem outcome_ok (s : State) : outcome (.ok s) = .next s := rfl

@[simp] theorem outcome_error (f : Fault) : outcome (.error f) = .fault f := rfl

/-- An operation whose only way to stop is a fault answers exactly what its result says. -/
theorem outcome_eq_next {r : Except Fault State} {t : State} : outcome r = .next t ↔ r = .ok t := by
  cases r <;> simp [outcome]

/-- A Timeline operation on the state changes the Timeline and nothing else. -/
theorem State.onTL_eq_ok {f : TL → Except Fault TL} {s t : State} :
    s.onTL f = .ok t ↔ ∃ tl, f s.tl = .ok tl ∧ t = s.withTL tl := by
  simp only [State.onTL, map_eq_ok, eq_comm (a := t)]

/-! ### The primitive operations -/

/-- `push` answers exactly when there is room and the duration fits, and then appends one element. -/
theorem TL.push_eq_ok {d : Nat} {tl tl' : TL} :
    TL.push d tl = .ok tl' ↔ tl.len < Config.depth ∧ d ≤ Config.durMax ∧
      tl' = { mem := Memory.write tl.mem tl.len d, len := tl.len + 1 } := by
  unfold TL.push
  split
  · next h => simp; omega
  · next h =>
    split
    · next h' => simp; omega
    · next h' => simp only [Except.ok.injEq, eq_comm]; constructor <;> intro hx
                 · exact ⟨by omega, by omega, hx⟩
                 · exact hx.2.2

/-- `extend` answers exactly when the last element has a value and the sum fits, and then writes the sum there. -/
theorem TL.extend_eq_ok {d : Nat} {tl tl' : TL} :
    TL.extend d tl = .ok tl' ↔ ∃ v, Memory.read tl.mem (tl.len - 1) = some v ∧ v + d ≤ Config.durMax ∧
      tl' = { tl with mem := Memory.write tl.mem (tl.len - 1) (v + d) } := by
  unfold TL.extend
  split
  · next h => simp [h]
  · next v h =>
    split
    · next h' => simp [h]; omega
    · next h' =>
      simp only [Except.ok.injEq, h, Option.some.injEq, exists_eq_left', eq_comm]
      constructor <;> intro hx
      · exact ⟨by omega, hx⟩
      · exact hx.2

/-- `TL_LOAD` answers exactly when the literal fits, and then stores it from index 0. -/
theorem TL.load_eq_ok {l : List Nat} {tl tl' : TL} :
    TL.load l tl = .ok tl' ↔ Fits l ∧ tl' = { mem := Memory.writeFrom tl.mem 0 l, len := l.length } := by
  unfold TL.load
  split
  · next h => simp [Fits, Config.depth] at *; omega
  · next h =>
    split
    · next h' =>
      simp only [List.any_eq_true, decide_eq_true_eq] at h'
      obtain ⟨x, hx, hlt⟩ := h'
      simp only [reduceCtorEq, false_iff, not_and]
      intro hf
      have := hf.2 x hx
      simp only [Config.durMax] at hlt
      omega
    · next h' =>
      simp only [Config.depth] at h
      simp only [Except.ok.injEq, eq_comm]
      constructor
      · intro hx
        refine ⟨⟨by omega, fun x hm => Nat.le_of_not_lt fun hlt => h' ?_⟩, hx⟩
        exact List.any_eq_true.2 ⟨x, hm, decide_eq_true hlt⟩
      · exact fun hx => hx.2

/-! ### Every operation keeps the store well formed -/

theorem StoreOk_push {d : Nat} {tl tl' : TL} (h : StoreOk tl) (hp : TL.push d tl = .ok tl') : StoreOk tl' := by
  obtain ⟨h1, h2, rfl⟩ := TL.push_eq_ok.1 hp
  obtain ⟨hw, hl, hr⟩ := h
  refine ⟨Memory.wf_write hw h1 h2, h1, fun i hi => ?_⟩
  simp only [Memory.read_write]
  split
  · rfl
  · next hne => exact hr i (by simp at hi; omega)

theorem StoreOk_extend {d : Nat} {tl tl' : TL} (h : StoreOk tl) (h0 : tl.len ≠ 0)
    (hp : TL.extend d tl = .ok tl') : StoreOk tl' := by
  obtain ⟨v, _, h2, rfl⟩ := TL.extend_eq_ok.1 hp
  obtain ⟨hw, hl, hr⟩ := h
  refine ⟨Memory.wf_write hw (Nat.lt_of_lt_of_le (Nat.sub_one_lt h0) hl) h2, hl, fun i hi => ?_⟩
  simp only [Memory.read_write]
  split
  · rfl
  · exact hr i hi

theorem StoreOk_clear {tl : TL} (h : StoreOk tl) : StoreOk tl.clear :=
  ⟨h.1, by simp, fun i hi => by simp at hi⟩

theorem StoreOk_load {l : List Nat} {tl tl' : TL} (h : StoreOk tl) (hp : TL.load l tl = .ok tl') : StoreOk tl' := by
  obtain ⟨⟨h1, h2⟩, rfl⟩ := TL.load_eq_ok.1 hp
  refine ⟨Memory.wf_writeFrom h.1 (by simpa [Config.depth] using h1) h2, h1, fun i hi => ?_⟩
  simp only at hi
  rw [Memory.read_writeFrom, if_pos (by omega)]
  simp [hi]

theorem StoreOk_mark {d : Nat} {tl tl' : TL} (h : StoreOk tl) (hp : TL.mark d tl = .ok tl') : StoreOk tl' := by
  unfold TL.mark at hp
  split at hp
  · exact StoreOk_push h hp
  · next h0 =>
    split at hp
    · exact StoreOk_extend h h0 hp
    · exact StoreOk_push h hp

theorem StoreOk_space {d : Nat} {tl tl' : TL} (h : StoreOk tl) (hp : TL.space d tl = .ok tl') : StoreOk tl' := by
  unfold TL.space at hp
  split at hp
  · obtain ⟨t, h1, h2⟩ := bind_eq_ok.1 hp
    exact StoreOk_push (StoreOk_push h h1) h2
  · next h0 =>
    split at hp
    · exact StoreOk_extend h h0 hp
    · exact StoreOk_push h hp

theorem StoreOk_replay {l : List Nat} {b : Bool} {tl tl' : TL} (h : StoreOk tl)
    (hp : TL.replay l b tl = .ok tl') : StoreOk tl' := by
  induction l generalizing b tl with
  | nil => simp only [TL.replay, Except.ok.injEq] at hp; exact hp ▸ h
  | cons d rest ih =>
    cases b with
    | false =>
      obtain ⟨t, h1, h2⟩ := bind_eq_ok.1 hp
      exact ih (StoreOk_space h h1) h2
    | true =>
      obtain ⟨t, h1, h2⟩ := bind_eq_ok.1 hp
      exact ih (StoreOk_mark h h1) h2

/-! ### The list the store holds -/

theorem Holds_nil_iff {tl : TL} : Holds tl [] ↔ tl.len = 0 := by
  simp [Holds]

theorem Holds_push {d : Nat} {tl : TL} {l : List Nat} (h : Holds tl l) :
    Holds { mem := Memory.write tl.mem tl.len d, len := tl.len + 1 } (l ++ [d]) := by
  refine ⟨by simp [h.1], fun i hi => ?_⟩
  simp only [List.length_append, List.length_singleton] at hi
  rw [Memory.read_write]
  split
  · next he => subst he; simp [h.1]
  · next hne =>
    have hlt : i < l.length := by have := h.1; omega
    rw [h.2 i hlt, List.getElem?_append_left hlt]

theorem bumpLast_append (d x : Nat) (l : List Nat) : bumpLast d (l ++ [x]) = l ++ [x + d] := by
  induction l with
  | nil => rfl
  | cons y rest ih =>
    cases rest with
    | nil => rfl
    | cons z r => simpa [bumpLast] using ih

@[simp] theorem length_bumpLast (d : Nat) (l : List Nat) : (bumpLast d l).length = l.length := by
  rcases List.eq_nil_or_concat l with rfl | ⟨r, x, rfl⟩
  · rfl
  · simp [bumpLast_append]

theorem Holds_extend {d x : Nat} {tl : TL} {l : List Nat} (h : Holds tl (l ++ [x])) :
    Memory.read tl.mem (tl.len - 1) = some x ∧
      Holds { tl with mem := Memory.write tl.mem (tl.len - 1) (x + d) } (l ++ [x + d]) := by
  have hlen : tl.len = l.length + 1 := by simpa using h.1
  have hx : Memory.read tl.mem (tl.len - 1) = some x := by
    rw [hlen, Nat.add_sub_cancel, h.2 l.length (by simp)]; simp
  refine ⟨hx, by simpa using hlen, fun i hi => ?_⟩
  simp only [List.length_append, List.length_singleton] at hi
  rw [Memory.read_write]
  split
  · next he => have : i = l.length := by omega
               subst this; simp
  · next hne =>
    have hlt : i < l.length := by omega
    rw [h.2 i (by simp; omega), List.getElem?_append_left hlt, List.getElem?_append_left hlt]

/-! ### `TL_MARK` and `TL_SPACE` in terms of the list -/

/-- A push when the list has room. -/
theorem TL.push_holds {d : Nat} {tl : TL} {l : List Nat} (h : Holds tl l) (hf : Fits (l ++ [d])) :
    ∃ tl', TL.push d tl = .ok tl' ∧ Holds tl' (l ++ [d]) ∧
      ∀ i, i ≠ tl.len → Memory.read tl'.mem i = Memory.read tl.mem i := by
  refine ⟨_, TL.push_eq_ok.2 ⟨?_, hf.2 d (by simp), rfl⟩, Holds_push h,
    fun i hi => Memory.read_write_other _ _ hi⟩
  have h1 := h.1
  have h2 := hf.1
  simp only [List.length_append, List.length_singleton] at h2
  simp only [Config.depth]
  omega

/-- A merge when the last element has room. -/
theorem TL.extend_holds {d : Nat} {tl : TL} {l : List Nat} (h : Holds tl l) (h0 : l ≠ [])
    (hf : Fits (bumpLast d l)) :
    ∃ tl', TL.extend d tl = .ok tl' ∧ Holds tl' (bumpLast d l) ∧
      ∀ i, i ≠ tl.len - 1 → Memory.read tl'.mem i = Memory.read tl.mem i := by
  rcases List.eq_nil_or_concat l with rfl | ⟨r, x, rfl⟩
  · exact absurd rfl h0
  · rw [List.concat_eq_append] at *
    rw [bumpLast_append] at hf ⊢
    obtain ⟨hx, hh⟩ := Holds_extend (d := d) h
    exact ⟨_, TL.extend_eq_ok.2 ⟨x, hx, hf.2 _ (by simp), rfl⟩, hh, fun i hi => Memory.read_write_other _ _ hi⟩

/-- `TL_MARK` (R102) when the list the rule gives fits. -/
theorem TL.mark_holds {d : Nat} {tl : TL} {l : List Nat} (h : Holds tl l) (hf : Fits (addMark d l)) :
    ∃ tl', TL.mark d tl = .ok tl' ∧ Holds tl' (addMark d l) ∧
      ∀ i, i ≠ (if tl.len % 2 = 1 then tl.len - 1 else tl.len) → Memory.read tl'.mem i = Memory.read tl.mem i := by
  have hl := h.1
  unfold TL.mark
  unfold addMark at hf ⊢
  by_cases hodd : l.length % 2 = 1
  · have h0 : tl.len ≠ 0 := by omega
    have hne : l ≠ [] := by rintro rfl; simp at hodd
    rw [if_pos hodd] at hf ⊢
    rw [if_neg h0, if_pos (hl ▸ hodd), if_pos (hl ▸ hodd)]
    exact TL.extend_holds h hne hf
  · rw [if_neg hodd] at hf ⊢
    have hodd' : ¬ tl.len % 2 = 1 := hl ▸ hodd
    rw [if_neg hodd', if_neg hodd', ite_self]
    exact TL.push_holds h hf

/-- `TL_SPACE` (R103) when the list the rule gives fits: the elements it leaves alone. -/
theorem TL.space_holds {d : Nat} {tl : TL} {l : List Nat} (h : Holds tl l) (hf : Fits (addSpace d l)) :
    ∃ tl', TL.space d tl = .ok tl' ∧ Holds tl' (addSpace d l) ∧
      (tl.len = 0 → ∀ i, 2 ≤ i → Memory.read tl'.mem i = Memory.read tl.mem i) ∧
      (tl.len ≠ 0 → ∀ i, i ≠ (if tl.len % 2 = 0 then tl.len - 1 else tl.len) →
        Memory.read tl'.mem i = Memory.read tl.mem i) := by
  have hl := h.1
  unfold TL.space
  unfold addSpace at hf ⊢
  by_cases hnil : l = []
  · subst hnil
    have h0 : tl.len = 0 := by simpa using hl
    rw [if_pos rfl] at hf ⊢
    rw [if_pos h0]
    obtain ⟨t1, e1, hh1, hk1⟩ := TL.push_holds (d := 0) h (by constructor <;> simp)
    obtain ⟨t2, e2, hh2, hk2⟩ := TL.push_holds (d := d) hh1 (by simpa using hf)
    have h1 : t1.len = 1 := by simpa using hh1.1
    refine ⟨t2, by rw [e1, bind_ok, e2], hh2, fun _ i hi => ?_, fun hne => absurd h0 hne⟩
    rw [hk2 i (by omega), hk1 i (by omega)]
  · have h0 : tl.len ≠ 0 := by
      intro h0; exact hnil (List.length_eq_zero_iff.1 (hl.symm.trans h0))
    rw [if_neg hnil] at hf ⊢
    rw [if_neg h0]
    by_cases heven : l.length % 2 = 0
    · rw [if_pos heven] at hf ⊢
      rw [if_pos (hl ▸ heven), if_pos (hl ▸ heven)]
      obtain ⟨t, e, hh, hk⟩ := TL.extend_holds h hnil hf
      exact ⟨t, e, hh, fun hz => absurd hz h0, fun _ => hk⟩
    · rw [if_neg heven] at hf ⊢
      rw [if_neg (hl ▸ heven), if_neg (hl ▸ heven)]
      obtain ⟨t, e, hh, hk⟩ := TL.push_holds h hf
      exact ⟨t, e, hh, fun hz => absurd hz h0, fun _ => hk⟩

end Sys2Proof.Machine
end

