-- ==== Sys2Proof/Laws/Command.lean ====
section
/-! SUPPORT. What a transfer, a command and a step can do, said once. -/

namespace Sys2Proof.Machine

open Sys2Proof.Safety

/-- A transfer (R183, R185): nothing outside `DRAIN`; in `DRAIN` it hands over one element that exists. -/
theorem State.beat_eq_ok {s t : State} :
    s.beat = .ok t ↔ (s.phase ≠ .drain ∧ t = s) ∨
      (s.phase = .drain ∧ s.rptr < s.tl.len ∧ ∃ d, Memory.read s.tl.mem s.rptr = some d ∧
        t = { s with
          sink  := s.sink ++ [.beat d (decide (s.rptr + 1 = s.tl.len)) s.tl.len s.freq]
          rptr  := s.rptr + 1
          phase := if s.rptr + 1 = s.tl.len then .idle else .drain }) := by
  unfold State.beat
  split
  · next h => simp [h, eq_comm]
  · next h => simp [h, eq_comm]
  · next h =>
    split
    · next hle => simp [h]; omega
    · next hlt =>
      split
      · next hr => simp [hr, h]
      · next d hr =>
        simp only [h, ne_eq, not_true_eq_false, false_and, false_or, true_and, hr, Option.some.injEq,
          exists_eq_left', Except.ok.injEq, eq_comm (b := t)]
        exact ⟨fun hx => ⟨by omega, hx⟩, fun hx => hx.2⟩

/-- A command (R180 to R182): from `IDLE` it is accepted and built, in `BUILD` it is built when it is the latched one, and
otherwise it waits. -/
theorem State.command_eq_ok {p : Proto} {c : Cfg} {s t : State} (h : s.command p c = .ok t) :
    (s.phase = .idle ∧ (s.accept p c).build p = .ok t) ∨
    (s.phase = .build ∧ s.proto = p ∧ s.cfg = c ∧ s.build p = .ok t) ∨
    (s.phase ≠ .idle ∧ t = s) := by
  unfold State.command at h
  split at h
  · next hp => exact .inl ⟨hp, h⟩
  · next hp =>
    split at h
    · next hc => exact .inr (.inl ⟨hp, hc.1, hc.2, h⟩)
    · exact .inr (.inr ⟨by simp [hp], by simpa using h.symm⟩)
  · next hp => exact .inr (.inr ⟨by simp [hp], by simpa using h.symm⟩)

/-- In `BUILD`, the latched command's `exec` is the build step. -/
theorem State.command_latched (s : State) (h : s.phase = .build) : s.command s.proto s.cfg = s.build s.proto := by
  simp [State.command, h]

/-- Accepting the configuration that is already latched writes what the latches hold. -/
theorem State.latch_latched (s : State) : s.latch s.proto s.cfg = s := rfl

/-- A step answers a next state either by waiting or by running the operation it fetched. -/
theorem step_eq_next {s t : State} :
    step s = .next t ↔ (fetch s = .wait ∧ t = s.popStim) ∨ ∃ i, fetch s = .run i ∧ exec i s.popStim = .next t := by
  unfold step
  split
  · next h => simp [h, eq_comm]
  · next i h => simp [h]
  · next r h => simp [h]

/-- At the ports a step fetches what the clock edge asks for, and never rejects. -/
theorem fetch_atPorts {s : State} (h : AtPorts s) : ∃ p, fetch s = edgeFetch p s := by
  rcases h with h | ⟨p, rest, h⟩
  · exact ⟨quietPins, by simp [fetch, h]⟩
  · exact ⟨p, by simp [fetch, h]⟩

/-- A clock edge runs one of four operations or waits (R203). -/
theorem edgeFetch_cases (p : Pins) (s : State) :
    edgeFetch p s = .run .reset ∨
    (s.phase = .drain ∧ (edgeFetch p s = .run .drainBeat ∨ edgeFetch p s = .wait)) ∨
    (s.phase = .build ∧ edgeFetch p s = .run (latchedCommand s)) ∨
    (s.phase = .idle ∧ (edgeFetch p s = .run (.cmdAccept p.cw) ∨ edgeFetch p s = .wait)) := by
  unfold edgeFetch
  split
  · exact .inl rfl
  · split
    · next h => refine .inr (.inl ⟨h, ?_⟩); split <;> simp
    · next h => exact .inr (.inr (.inl ⟨h, rfl⟩))
    · next h => refine .inr (.inr (.inr ⟨h, ?_⟩)); split <;> simp

/-- What a test bench's operation comes to: it runs, or, where it would change a frame that is being drained, it is taken
with no effect (log 1). -/
theorem benchFetch_cases (i : Instr) (s : State) :
    (benchFetch i s = .run i ∧ (s.phase ≠ .drain ∨ runsInDrain i = true)) ∨
    (benchFetch i s = .wait ∧ s.phase = .drain ∧ runsInDrain i = false) := by
  unfold benchFetch outValid
  by_cases h : s.phase = .drain <;> cases hr : runsInDrain i <;> simp [h]

end Sys2Proof.Machine
end

