-- ==== Sys2Proof/Laws/Encoding.lean ====
section
/-! SUPPORT. The words of the layouts, bit by bit and as numbers. -/

namespace Sys2Proof.Machine

/-- Concatenation as a number: the upper part shifted by the lower part's width, plus the lower part. -/
theorem toNat_concat {a b : Nat} (x : BitVec a) (y : BitVec b) : (x ++ y).toNat = x.toNat * 2 ^ b + y.toNat := by
  rw [BitVec.toNat_append, Nat.shiftLeft_eq, Nat.mul_comm, Nat.two_pow_add_eq_or_of_lt y.isLt]

/-- The bits of a command word (R71). -/
theorem encodeCW_getLsbD (p : Proto) (c : Cfg) {i : Nat} (hi : i < 17) : (encodeCW p c).getLsbD i =
    if i = 0 then c.sleep else if i = 1 then c.swing else if i < 10 then c.temp.getLsbD (i - 2)
    else if i < 12 then c.fan.getLsbD (i - 10) else if i < 15 then c.mode.getLsbD (i - 12)
    else if i = 15 then c.power else protoBit p := by
  unfold encodeCW
  simp only [BitVec.getLsbD_append, BitVec.getLsbD_ofBool]
  interval_cases i <;> simp

/-- The command word as a number (R71). -/
theorem encodeCW_toNat (p : Proto) (c : Cfg) : (encodeCW p c).toNat =
    (protoBit p).toNat * 2 ^ 16 + c.power.toNat * 2 ^ 15 + c.mode.toNat * 2 ^ 12 + c.fan.toNat * 2 ^ 10
      + c.temp.toNat * 2 ^ 2 + c.swing.toNat * 2 + c.sleep.toNat := by
  unfold encodeCW
  simp only [toNat_concat, BitVec.toNat_ofBool]
  ring_nf

/-- The bits of a push word (R72). -/
theorem encodePW_getLsbD (space : Bool) (d : Nat) {i : Nat} (hi : i < 17) : (encodePW space d).getLsbD i =
    if i < 16 then d.testBit i else space := by
  unfold encodePW
  simp only [BitVec.getLsbD_append, BitVec.getLsbD_ofBool, BitVec.getLsbD_ofNat]
  interval_cases i <;> simp

/-- The word of a push whose operand is in range (R72, R102, R103). -/
theorem encodePush_of_le (space : Bool) {d : Nat} (h : d ≤ Config.durMax) :
    encodePush space d = some (.pw, (encodePW space d).toNat) := if_pos h

/-- A push whose operand is out of range has no word (log 15). -/
theorem encodePush_of_lt (space : Bool) {d : Nat} (h : Config.durMax < d) : encodePush space d = none :=
  if_neg (Nat.not_le.2 h)

/-- The Orange code word as a number (R140), over the field values. -/
theorem orangeWord_toNat (c : Cfg) (m : BitVec 3) : (orangeWord c m).toNat =
    c.power.toNat * 2 ^ 33 + (orangeMode c.mode m).toNat * 2 ^ 30 + (orangeFan c.fan).toNat * 2 ^ 28
      + c.swing.toNat * 2 ^ 25 + (temp15 c.temp).toNat * 2 ^ 19 + c.sleep.toNat * 2 ^ 18 + 2 := by
  unfold orangeWord
  simp only [toNat_concat, BitVec.toNat_ofBool]
  simp
  ring_nf

/-- The Orange fan code is the input code (R76). -/
theorem orangeFan_eq (f : BitVec 2) : orangeFan f = f := by
  revert f; decide

/-- Bit i of a reversed byte is bit 7 - i (R162). -/
theorem bitRev8_getLsbD (b : Byte) {i : Nat} (hi : i < 8) : (bitRev8 b).getLsbD i = b.getLsbD (7 - i) := by
  unfold bitRev8
  simp only [BitVec.getLsbD_append, BitVec.getLsbD_ofBool]
  interval_cases i <;> simp

end Sys2Proof.Machine
end

