-- ==== Sys2Proof/Laws/Refine.lean ====
section
/-! SUPPORT. An operation on the store against a rule on lists, and how such pairs compose: what each Timeline, encoder
and framer operation does to the list is then read off its expansion. -/

namespace Sys2Proof.Machine

open Sys2Proof.Safety

/-- A Timeline operation that stops, and names a bound of the store that the list it would leave breaks (R108, R109;
log 15). -/
def OverBound (r : Except Fault TL) (l : List Nat) : Prop :=
  (r = .error .timelineFull ∧ 256 < l.length) ∨ (r = .error .durationOverflow ∧ ∃ x ∈ l, 65535 < x)

/-- Everything `f` can do to a store that holds `l`. Where the list `g l` fits, `f` answers, the store then holds `g l`,
and elements below the old last one and at or above the new length are as before; where `l` fits and `g l` does not, `f`
faults and names a bound that `g l` breaks. -/
structure Refines (f : TL → Except Fault TL) (g : List Nat → List Nat) : Prop where
  answers : ∀ tl l, Holds tl l → Fits (g l) → ∃ tl', f tl = .ok tl' ∧ Holds tl' (g l) ∧
    ∀ i, i + 1 < tl.len ∨ tl'.len ≤ i → Memory.read tl'.mem i = Memory.read tl.mem i
  stops : ∀ tl l, Holds tl l → Fits l → ¬ Fits (g l) → OverBound (f tl) (g l)

/-- A rule on lists that never shortens a list and never shrinks an element. -/
def Grows (g : List Nat → List Nat) : Prop := ∀ l, l.length ≤ (g l).length ∧ ∀ x ∈ l, ∃ y ∈ g l, x ≤ y

/-- A list that fits after growing has fitted before. -/
theorem Grows.fits {g : List Nat → List Nat} (h : Grows g) {l : List Nat} (hf : Fits (g l)) : Fits l :=
  ⟨Nat.le_trans (h l).1 hf.1, fun x hx => by
    obtain ⟨y, hy, hle⟩ := (h l).2 x hx
    exact Nat.le_trans hle (hf.2 y hy)⟩

/-- A list that breaks a bound breaks it after growing. -/
theorem Grows.overBound {g : List Nat → List Nat} (h : Grows g) {r : Except Fault TL} {l : List Nat}
    (ho : OverBound r l) : OverBound r (g l) := by
  rcases ho with ⟨e, hl⟩ | ⟨e, x, hx, hlt⟩
  · exact .inl ⟨e, Nat.lt_of_lt_of_le hl (h l).1⟩
  · obtain ⟨y, hy, hle⟩ := (h l).2 x hx
    exact .inr ⟨e, y, hy, Nat.lt_of_lt_of_le hlt hle⟩

theorem Grows.comp {g₁ g₂ : List Nat → List Nat} (h₁ : Grows g₁) (h₂ : Grows g₂) : Grows (fun l => g₂ (g₁ l)) :=
  fun l => ⟨Nat.le_trans (h₁ l).1 (h₂ (g₁ l)).1, fun x hx => by
    obtain ⟨y, hy, hxy⟩ := (h₁ l).2 x hx
    obtain ⟨z, hz, hyz⟩ := (h₂ (g₁ l)).2 y hy
    exact ⟨z, hz, Nat.le_trans hxy hyz⟩⟩

theorem Grows.id : Grows (fun l => l) := fun _ => ⟨Nat.le_refl _, fun x hx => ⟨x, hx, Nat.le_refl x⟩⟩

theorem Refines.id : Refines (fun tl => .ok tl) (fun l => l) :=
  ⟨fun tl _ h _ => ⟨tl, rfl, h, fun _ _ => rfl⟩, fun _ _ _ hf hn => absurd hf hn⟩

/-- One operation after another does one rule after the other. -/
theorem Refines.comp {f₁ f₂ : TL → Except Fault TL} {g₁ g₂ : List Nat → List Nat} (h₁ : Refines f₁ g₁)
    (h₂ : Refines f₂ g₂) (m₁ : Grows g₁) (m₂ : Grows g₂) :
    Refines (fun tl => (f₁ tl).bind f₂) (fun l => g₂ (g₁ l)) := by
  constructor
  · intro tl l h hf
    obtain ⟨t₁, e₁, hh₁, k₁⟩ := h₁.answers tl l h (m₂.fits hf)
    obtain ⟨t₂, e₂, hh₂, k₂⟩ := h₂.answers t₁ _ hh₁ hf
    refine ⟨t₂, by simp only [e₁, bind_ok, e₂], hh₂, fun i hi => ?_⟩
    have hl := h.1
    have hl₁ := hh₁.1
    have hl₂ := hh₂.1
    have a₁ := (m₁ l).1
    have a₂ := (m₂ (g₁ l)).1
    rw [k₂ i (by omega), k₁ i (by omega)]
  · intro tl l h hl hn
    by_cases hf : Fits (g₁ l)
    · obtain ⟨t₁, e₁, hh₁, -⟩ := h₁.answers tl l h hf
      simpa only [e₁, bind_ok] using h₂.stops t₁ _ hh₁ hf hn
    · have ho : OverBound ((f₁ tl).bind f₂) (g₁ l) :=
        (h₁.stops tl l h hl hf).imp (fun ⟨e, hx⟩ => ⟨by rw [e]; rfl, hx⟩) (fun ⟨e, hx⟩ => ⟨by rw [e]; rfl, hx⟩)
      exact m₂.overBound ho

theorem mem_bumpLast_ge {d x : Nat} {l : List Nat} (hx : x ∈ l) : ∃ y ∈ bumpLast d l, x ≤ y := by
  rcases List.eq_nil_or_concat l with rfl | ⟨r, z, rfl⟩
  · simp at hx
  · rw [List.concat_eq_append] at *
    rw [bumpLast_append]
    rcases List.mem_append.1 hx with hx | hx
    · exact ⟨x, by simp [hx], Nat.le_refl x⟩
    · exact ⟨z + d, by simp, by simp at hx; omega⟩

theorem Grows_bumpLast (d : Nat) : Grows (bumpLast d) := fun _ => ⟨by simp, fun _ hx => mem_bumpLast_ge hx⟩

theorem Grows_append (r : List Nat) : Grows (fun l => l ++ r) :=
  fun _ => ⟨by simp, fun x hx => ⟨x, by simp [hx], Nat.le_refl x⟩⟩

theorem Grows_addMark (d : Nat) : Grows (addMark d) := by
  intro l
  unfold addMark
  split
  · exact Grows_bumpLast d l
  · exact Grows_append [d] l

theorem Grows_addSpace (d : Nat) : Grows (addSpace d) := by
  intro l
  unfold addSpace
  split
  · next h => subst h; exact ⟨by simp, fun _ hx => absurd hx List.not_mem_nil⟩
  · split
    · exact Grows_bumpLast d l
    · exact Grows_append [d] l

/-- A push when the list has no room, or the element has none. -/
theorem TL.push_stops {d : Nat} {tl : TL} {l : List Nat} (h : Holds tl l) (hl : Fits l) (hn : ¬ Fits (l ++ [d])) :
    OverBound (TL.push d tl) (l ++ [d]) := by
  have hlen := h.1
  unfold TL.push
  by_cases hfull : Config.depth ≤ tl.len
  · exact .inl ⟨if_pos hfull, by simp only [Config.depth] at hfull; simp; omega⟩
  · have hd : Config.durMax < d := by
      refine Nat.lt_of_not_le fun hle => hn ⟨?_, ?_⟩
      · simp only [Config.depth] at hfull; simp; omega
      · simpa [or_imp, forall_and] using And.intro hl.2 hle
    exact .inr ⟨by rw [if_neg hfull, if_pos hd], d, by simp, hd⟩

/-- A merge when the last element has no room. -/
theorem TL.extend_stops {d : Nat} {tl : TL} {l : List Nat} (h : Holds tl l) (h0 : l ≠ []) (hl : Fits l)
    (hn : ¬ Fits (bumpLast d l)) : OverBound (TL.extend d tl) (bumpLast d l) := by
  rcases List.eq_nil_or_concat l with rfl | ⟨r, x, rfl⟩
  · exact absurd rfl h0
  · rw [List.concat_eq_append] at *
    rw [bumpLast_append] at hn ⊢
    obtain ⟨hx, -⟩ := Holds_extend (d := d) h
    have hd : Config.durMax < x + d := by
      refine Nat.lt_of_not_le fun hle => hn ⟨by simpa using hl.1, fun y hy => ?_⟩
      rcases List.mem_append.1 hy with hy | hy
      · exact hl.2 y (by simp [hy])
      · rw [List.mem_singleton.1 hy]; exact hle
    exact .inr ⟨by simp only [TL.extend, hx, if_pos hd], x + d, by simp, hd⟩

/-- `TL_MARK` (R102) where the list the rule gives does not fit (R108, R109; log 15). -/
theorem TL.mark_stops {d : Nat} {tl : TL} {l : List Nat} (h : Holds tl l) (hl : Fits l) (hn : ¬ Fits (addMark d l)) :
    OverBound (TL.mark d tl) (addMark d l) := by
  have hlen := h.1
  unfold TL.mark
  unfold addMark at hn ⊢
  by_cases hodd : l.length % 2 = 1
  · have hne : l ≠ [] := by rintro rfl; simp at hodd
    rw [if_pos hodd] at hn ⊢
    rw [if_neg (by omega), if_pos (hlen ▸ hodd)]
    exact TL.extend_stops h hne hl hn
  · rw [if_neg hodd] at hn ⊢
    rw [if_neg (hlen ▸ hodd : ¬ tl.len % 2 = 1), ite_self]
    exact TL.push_stops h hl hn

/-- `TL_SPACE` (R103) where the list the rule gives does not fit (R108, R109; log 15). -/
theorem TL.space_stops {d : Nat} {tl : TL} {l : List Nat} (h : Holds tl l) (hl : Fits l)
    (hn : ¬ Fits (addSpace d l)) : OverBound (TL.space d tl) (addSpace d l) := by
  have hlen := h.1
  unfold TL.space
  unfold addSpace at hn ⊢
  by_cases hnil : l = []
  · subst hnil
    rw [if_pos rfl] at hn ⊢
    rw [if_pos (by simpa using hlen)]
    have hz : Fits ([] ++ [0]) := by constructor <;> simp
    obtain ⟨t1, e1, hh1, -⟩ := TL.push_holds (d := 0) h hz
    rw [e1, bind_ok]
    exact TL.push_stops hh1 hz hn
  · have h0 : tl.len ≠ 0 := fun h0 => hnil (List.length_eq_zero_iff.1 (hlen.symm.trans h0))
    rw [if_neg hnil] at hn ⊢
    rw [if_neg h0]
    by_cases heven : l.length % 2 = 0
    · rw [if_pos heven] at hn ⊢
      rw [if_pos (hlen ▸ heven)]
      exact TL.extend_stops h hnil hl hn
    · rw [if_neg heven] at hn ⊢
      rw [if_neg (hlen ▸ heven)]
      exact TL.push_stops h hl hn

theorem Refines_mark (d : Nat) : Refines (TL.mark d) (addMark d) := by
  refine ⟨?_, fun _ _ => TL.mark_stops⟩
  intro tl l h hf
  obtain ⟨t, e, hh, hk⟩ := TL.mark_holds h hf
  refine ⟨t, e, hh, fun i hi => hk i ?_⟩
  have h1 := h.1
  have h2 := hh.1
  have h3 : (addMark d l).length = if l.length % 2 = 1 then l.length else l.length + 1 := by
    unfold addMark; split <;> simp
  split <;> simp_all <;> omega

theorem Refines_space (d : Nat) : Refines (TL.space d) (addSpace d) := by
  refine ⟨?_, fun _ _ => TL.space_stops⟩
  intro tl l h hf
  obtain ⟨t, e, hh, hk0, hk1⟩ := TL.space_holds h hf
  refine ⟨t, e, hh, fun i hi => ?_⟩
  have h1 := h.1
  have h2 := hh.1
  by_cases h0 : tl.len = 0
  · have hn : l = [] := List.length_eq_zero_iff.1 (h1.symm.trans h0)
    have h2 : t.len = 2 := by simpa [addSpace, hn] using hh.1
    exact hk0 h0 i (by omega)
  · have hn : l ≠ [] := fun hc => h0 (by simp [h1, hc])
    have h3 : (addSpace d l).length = if l.length % 2 = 0 then l.length else l.length + 1 := by
      unfold addSpace; rw [if_neg hn]; split <;> simp
    refine hk1 h0 i ?_
    rw [h3, ← h1] at h2
    split
    · next he => rw [if_pos he] at h2; omega
    · next he => rw [if_neg he] at h2; omega

theorem Grows_manBit (u : Nat) (b : Bool) : Grows (fun l => manBit u l b) := by
  cases b
  · exact (Grows_addMark u).comp (Grows_addSpace u)
  · exact (Grows_addSpace u).comp (Grows_addMark u)

theorem Grows_pdBit (u : Nat) (b : Bool) : Grows (fun l => Safety.pdBit u l b) :=
  (Grows_addMark u).comp (Grows_addSpace _)

theorem Refines_manBit (u : Nat) (b : Bool) : Refines (TL.manBit u b) (fun l => manBit u l b) := by
  cases b
  · exact (Refines_mark u).comp (Refines_space u) (Grows_addMark u) (Grows_addSpace u)
  · exact (Refines_space u).comp (Refines_mark u) (Grows_addSpace u) (Grows_addMark u)

theorem Refines_pdBit (u : Nat) (b : Bool) : Refines (TL.pdBit u b) (fun l => Safety.pdBit u l b) := by
  cases b
  · exact (Refines_mark u).comp (Refines_space u) (Grows_addMark u) (Grows_addSpace u)
  · exact (Refines_mark u).comp (Refines_space (3 * u)) (Grows_addMark u) (Grows_addSpace _)

theorem Grows_foldl {β : Type} {g : List Nat → β → List Nat} (h : ∀ b, Grows (fun l => g l b)) (bs : List β) :
    Grows (fun l => bs.foldl g l) := by
  induction bs with
  | nil => exact Grows.id
  | cons b rest ih => exact (h b).comp ih

theorem Refines_manBits (u : Nat) (bs : List Bool) : Refines (TL.manBits u bs) (fun l => bs.foldl (manBit u) l) := by
  induction bs with
  | nil => exact Refines.id
  | cons b rest ih => exact (Refines_manBit u b).comp ih (Grows_manBit u b) (Grows_foldl (Grows_manBit u) rest)

theorem Refines_pdBits (u : Nat) (bs : List Bool) :
    Refines (TL.pdBits u bs) (fun l => bs.foldl (Safety.pdBit u) l) := by
  induction bs with
  | nil => exact Refines.id
  | cons b rest ih => exact (Refines_pdBit u b).comp ih (Grows_pdBit u b) (Grows_foldl (Grows_pdBit u) rest)

/-- The bits `MAN_NUM` looks at, in order (R123). -/
theorem msbFirst_eq (v w : Nat) : msbFirst v w = numBits v w := by
  induction w with
  | zero => rfl
  | succ w ih => simp [msbFirst, ih, numBits, List.range_succ]

/-- The bits `PD_BUF` looks at, in order (R127). -/
theorem stream_eq (bytes : List Byte) (w : Nat) : stream bytes w = bufBits bytes w := rfl

theorem Refines_replay (other : List Nat) (space : Bool) :
    Refines (TL.replay other (!space)) (replay other space) ∧ Grows (replay other space) := by
  induction other generalizing space with
  | nil => exact ⟨Refines.id, Grows.id⟩
  | cons d rest ih =>
    cases space
    · exact ⟨(Refines_mark d).comp (ih true).1 (Grows_addMark d) (ih true).2, (Grows_addMark d).comp (ih true).2⟩
    · exact ⟨(Refines_space d).comp (ih false).1 (Grows_addSpace d) (ih false).2, (Grows_addSpace d).comp (ih false).2⟩

/-- `TL_APPEND` (R104). -/
theorem Refines_append (other : List Nat) : Refines (TL.append other) (appendTo other) := by
  match other with
  | [] => exact (Refines_replay [] false).1
  | 0 :: rest => exact (Refines_replay rest true).1
  | (n + 1) :: rest => exact (Refines_replay ((n + 1) :: rest) false).1

/-- `MAN_NUM` (R123). -/
theorem Refines_manNum (u v w : Nat) : Refines (TL.manNum u v w) (fun l => (numBits v w).foldl (manBit u) l) :=
  msbFirst_eq v w ▸ Refines_manBits u (msbFirst v w)

/-- `PD_BUF` (R127). -/
theorem Refines_pdBuf (u : Nat) (bytes : List Byte) (w : Nat) :
    Refines (TL.pdBuf u bytes w) (fun l => (bufBits bytes w).foldl (Safety.pdBit u) l) :=
  Refines_pdBits u (bufBits bytes w)

/-- `TL_LOAD` of a literal that does not fit (R101, R109; log 15). -/
theorem TL.load_stops {seq : List Nat} (tl : TL) (h : ¬ Fits seq) : OverBound (TL.load seq tl) seq := by
  unfold TL.load
  by_cases hlen : Config.depth < seq.length
  · exact .inl ⟨if_pos hlen, hlen⟩
  · have hx : ∃ x ∈ seq, Config.durMax < x := by
      simp only [not_and, not_forall, Nat.not_le] at h
      obtain ⟨x, hx, hlt⟩ := h (Nat.le_of_not_lt hlen)
      exact ⟨x, hx, hlt⟩
    refine .inr ⟨?_, hx⟩
    rw [if_neg hlen, if_pos (by simpa using hx)]

/-- From the refinement of a Timeline operation to the state: nothing but the Timeline changes. -/
theorem Refines.onTL {f : TL → Except Fault TL} {g : List Nat → List Nat} (h : Refines f g) {s : State} {l : List Nat}
    (hl : Holds s.tl l) (hf : Fits (g l)) : ∃ tl, outcome (s.onTL f) = .next { s with tl := tl } ∧ Holds tl (g l) ∧
      ∀ i, i + 1 < s.tl.len ∨ tl.len ≤ i → Memory.read tl.mem i = Memory.read s.tl.mem i := by
  obtain ⟨t, e, hh, hk⟩ := h.answers s.tl l hl hf
  exact ⟨t, by simp [State.onTL, e, State.withTL], hh, hk⟩

/-- From the refinement of a Timeline operation to the fault of an operation that is that on the state (R108, R109). -/
theorem Refines.faultsAtTheBound {f : TL → Except Fault TL} {g : List Nat → List Nat} (h : Refines f g) {i : Instr}
    {s : State} {l : List Nat} (he : exec i s = outcome (s.onTL f)) (hl : Holds s.tl l) (hf : Fits l)
    (hn : ¬ Fits (g l)) : FaultsAtTheBound i s (g l) := by
  rcases h.stops s.tl l hl hf hn with ⟨e, hx⟩ | ⟨e, hx⟩
  · exact .inl ⟨by rw [he, State.onTL, e]; rfl, hx⟩
  · exact .inr ⟨by rw [he, State.onTL, e]; rfl, hx⟩

end Sys2Proof.Machine
end

