-- ==== Sys2Proof/Laws/Frames.lean ====
section
/-! SUPPORT. What the packets of the two framers put on a Timeline: their rules on lists, and that both frames fit the
store whatever the code registers hold. -/

namespace Sys2Proof.Machine

open Sys2Proof.Safety

/-! ### Pushes on a list whose parity is known -/

/-- What Manchester bits make of the last element `x`, which is a mark when `m`: the elements from it on. -/
def manRuns (u : Nat) : Nat → Bool → List Bool → List Nat
  | x, _, [] => [x]
  | x, m, b :: bs => if b = m then x :: u :: manRuns u u b bs else (x + u) :: manRuns u u b bs

theorem addMark_mark {d x : Nat} {r : List Nat} (h : r.length % 2 = 0) : addMark d (r ++ [x]) = r ++ [x + d] := by
  unfold addMark; rw [if_pos (by simp; omega), bumpLast_append]

theorem addMark_space {d : Nat} {l : List Nat} (h : l.length % 2 = 0) : addMark d l = l ++ [d] := by
  unfold addMark; rw [if_neg (by omega)]

theorem addSpace_space {d x : Nat} {r : List Nat} (h : r.length % 2 = 1) : addSpace d (r ++ [x]) = r ++ [x + d] := by
  unfold addSpace; rw [if_neg (by simp), if_pos (by simp; omega), bumpLast_append]

theorem addSpace_mark {d : Nat} {l : List Nat} (h : l.length % 2 = 1) : addSpace d l = l ++ [d] := by
  unfold addSpace; rw [if_neg (by rintro rfl; simp at h), if_neg (by omega)]

/-- One Manchester bit on a list whose last element is known. -/
theorem manBit_append (u : Nat) (b m : Bool) (r : List Nat) (x : Nat) (h : r.length % 2 = if m then 0 else 1) :
    Safety.manBit u (r ++ [x]) b = (if b = m then r ++ [x, u] else r ++ [x + u]) ++ [u] := by
  cases b <;> cases m <;> simp only [if_true, Bool.false_eq_true, if_false] at h
  · rw [Safety.manBit, if_neg (by simp), addMark_space (by simp; omega), addSpace_mark (by simp; omega)]; simp
  · rw [Safety.manBit, if_neg (by simp), addMark_mark h, addSpace_mark (by simp; omega)]; simp
  · rw [Safety.manBit, if_pos rfl, addSpace_space h, addMark_space (by simp; omega)]; simp
  · rw [Safety.manBit, if_pos rfl, addSpace_mark (by simp; omega), addMark_space (by simp; omega)]; simp

theorem foldl_manBit (u : Nat) (bs : List Bool) (r : List Nat) (x : Nat) (m : Bool)
    (h : r.length % 2 = if m then 0 else 1) :
    bs.foldl (Safety.manBit u) (r ++ [x]) = r ++ manRuns u x m bs := by
  induction bs generalizing r x m with
  | nil => rfl
  | cons b bs ih =>
    rw [List.foldl_cons, manBit_append u b m r x h, ih _ u b (by
      cases b <;> cases m <;> simp only [if_true, Bool.false_eq_true, if_false] at h <;> simp <;> omega)]
    rw [manRuns]
    split <;> simp

theorem manRuns_le (u x : Nat) (m : Bool) (bs : List Bool) (hx : u ≤ x) :
    ∀ y ∈ manRuns u x m bs, y ≤ x + u := by
  induction bs generalizing x m with
  | nil => simp [manRuns]
  | cons b bs ih =>
    have := ih u b (Nat.le_refl u)
    unfold manRuns
    split <;> simp only [List.mem_cons] <;> rintro y h
    · rcases h with rfl | rfl | h
      · omega
      · omega
      · have := this y h; omega
    · rcases h with rfl | h
      · omega
      · have := this y h; omega

theorem Refines_oCodeHeader : Refines TL.oCodeHeader (fun l => addSpace 2976 (addMark 2976 l)) :=
  (Refines_mark 2976).comp (Refines_space 2976) (Grows_addMark _) (Grows_addSpace _)

theorem Grows_header (a b : Nat) : Grows (fun l => addSpace b (addMark a l)) := (Grows_addMark a).comp (Grows_addSpace b)

theorem Refines_oBlock (code : BitVec 34) : Refines (TL.oBlock code) (addOrangeBlock code) := by
  have h := Refines_oCodeHeader.comp (Refines_manBits 992 (numBits code.toNat 34)) (Grows_header _ _)
    (Grows_foldl (Grows_manBit 992) _)
  have h' := h.comp Refines.id ((Grows_header _ _).comp (Grows_foldl (Grows_manBit 992) _)) Grows.id
  rw [← msbFirst_eq] at h'
  unfold addOrangeBlock
  rw [← msbFirst_eq]
  exact h'

theorem Grows_oBlock (code : BitVec 34) : Grows (addOrangeBlock code) :=
  (Grows_header _ _).comp (Grows_foldl (Grows_manBit 992) _)

theorem Refines_oBlocks (code : BitVec 34) :
    Refines (TL.oBlocks code 3) (fun l => addOrangeBlock code (addOrangeBlock code (addOrangeBlock code l))) := by
  have g := Grows_oBlock code
  generalize hb : addOrangeBlock code = b at g ⊢
  have r := Refines_oBlock code
  rw [hb] at r
  have h1 : Refines (TL.oBlocks code 1) b := by
    exact Refines.comp (g₁ := b) (g₂ := fun l => l) r Refines.id g Grows.id
  have h2 : Refines (TL.oBlocks code 2) (fun l => b (b l)) := Refines.comp (g₁ := b) (g₂ := b) r h1 g g
  exact Refines.comp (g₁ := b) (g₂ := fun l => b (b l)) r h2 g (g.comp g)

theorem Refines_orangePacket (code : BitVec 34) : Refines (TL.orangePacket code)
    (fun l => addMark 3968 (addOrangeBlock code (addOrangeBlock code (addOrangeBlock code l)))) := by
  have g := Grows_oBlock code
  have h := Refines_oBlocks code
  generalize addOrangeBlock code = b at g h ⊢
  exact Refines.comp (g₁ := fun l => b (b (b l))) (g₂ := addMark 3968) h (Refines_mark 3968) (g.comp (g.comp g))
    (Grows_addMark _)

/-- Manchester bits end in an element of one unit. -/
theorem manRuns_last (u x : Nat) (m : Bool) (bs : List Bool) (h : bs ≠ []) : ∃ q, manRuns u x m bs = q ++ [u] := by
  induction bs generalizing x m with
  | nil => exact absurd rfl h
  | cons b bs ih =>
    rw [manRuns]
    by_cases hb : bs = []
    · subst hb
      split
      · exact ⟨[x, u], rfl⟩
      · exact ⟨[x + u], rfl⟩
    · obtain ⟨q, e⟩ := ih u b hb
      split
      · exact ⟨x :: u :: q, by simp [e]⟩
      · exact ⟨(x + u) :: q, by simp [e]⟩

theorem manRuns_length (u x : Nat) (m : Bool) (bs : List Bool) : (manRuns u x m bs).length ≤ 1 + 2 * bs.length := by
  induction bs generalizing x m with
  | nil => simp [manRuns]
  | cons b bs ih =>
    have := ih u b
    rw [manRuns]; split <;> simp <;> omega

theorem addOrangeBlock_eq (code : BitVec 34) (l : List Nat) :
    addOrangeBlock code l = addMark 2976 l ++ manRuns 992 2976 false (numBits code.toNat 34) := by
  unfold addOrangeBlock
  have hm : (addMark 2976 l).length % 2 = 1 := by
    unfold addMark; split
    · next h => simpa using h
    · next h => simp; omega
  rw [addSpace_mark hm, foldl_manBit 992 _ _ 2976 false (by simpa using hm)]

@[simp] theorem numBits_length (v w : Nat) : (numBits v w).length = w := by simp [numBits]

/-- What every stage of an Orange frame looks like: it ends in one unit, or is empty, and no element is above four
units. -/
def Stage (n : Nat) (l : List Nat) : Prop := l.length ≤ n ∧ (∀ x ∈ l, x ≤ 3968) ∧ (l = [] ∨ ∃ q, l = q ++ [992])

theorem Stage_addOrangeBlock {n : Nat} {code : BitVec 34} {l : List Nat} (h : Stage n l) :
    Stage (n + 70) (addOrangeBlock code l) := by
  obtain ⟨h1, h2, h3⟩ := h
  rw [addOrangeBlock_eq]
  have hlen := manRuns_length 992 2976 false (numBits code.toNat 34)
  rw [numBits_length] at hlen
  refine ⟨?_, ?_, .inr ?_⟩
  · have : (addMark 2976 l).length ≤ l.length + 1 := by unfold addMark; split <;> simp
    simp; omega
  · intro x hx
    rcases List.mem_append.1 hx with hx | hx
    · unfold addMark at hx
      split at hx
      · rcases h3 with rfl | ⟨q, rfl⟩
        · exact absurd hx (List.not_mem_nil)
        · rw [bumpLast_append] at hx
          rcases List.mem_append.1 hx with hx | hx
          · exact h2 x (by simp [hx])
          · simp at hx; omega
      · rcases List.mem_append.1 hx with hx | hx
        · exact h2 x hx
        · simp at hx; omega
    · have := manRuns_le 992 2976 false _ (by omega) x hx; omega
  · obtain ⟨q, e⟩ := manRuns_last 992 2976 false (numBits code.toNat 34)
      (by intro hc; have := numBits_length code.toNat 34; rw [hc] at this; simp at this)
    exact ⟨addMark 2976 l ++ q, by rw [e, List.append_assoc]⟩

/-- No Orange frame is longer than the 211 elements of a Green one, and no element of it exceeds eight units. -/
theorem orangeFrame_bounds (code : BitVec 34) :
    (orangeFrame code).length ≤ 211 ∧ ∀ x ∈ orangeFrame code, x ≤ 7936 := by
  have h0 : Stage 0 [] := ⟨by simp, by simp, .inl rfl⟩
  obtain ⟨h1, h2, h3⟩ := Stage_addOrangeBlock (code := code) (Stage_addOrangeBlock (code := code)
    (Stage_addOrangeBlock (code := code) h0))
  unfold orangeFrame
  generalize addOrangeBlock code (addOrangeBlock code (addOrangeBlock code [])) = l at h1 h2 h3
  constructor
  · have : (addMark 3968 l).length ≤ l.length + 1 := by unfold addMark; split <;> simp
    omega
  · intro x hx
    unfold addMark at hx
    split at hx
    · rcases h3 with rfl | ⟨q, rfl⟩
      · exact absurd hx (List.not_mem_nil)
      · rw [bumpLast_append] at hx
        rcases List.mem_append.1 hx with hx | hx
        · have := h2 x (by simp [hx]); omega
        · simp at hx; omega
    · rcases List.mem_append.1 hx with hx | hx
      · have := h2 x hx; omega
      · simp at hx; omega

/-- Every Orange frame fits the store. -/
theorem Fits_orangeFrame (code : BitVec 34) : Fits (orangeFrame code) :=
  ⟨Nat.le_trans (orangeFrame_bounds code).1 (by decide),
    fun x hx => Nat.le_trans ((orangeFrame_bounds code).2 x hx) (by decide)⟩

theorem orangeFrame_pos (code : BitVec 34) : 0 < (orangeFrame code).length := by
  unfold orangeFrame addMark
  split
  · rw [length_bumpLast]; omega
  · simp

/-! ### The Green packet -/

/-- One pulse-distance bit on a list of even length. -/
theorem pdBit_append (u : Nat) (b : Bool) (l : List Nat) (h : l.length % 2 = 0) :
    Safety.pdBit u l b = l ++ [u, if b then 3 * u else u] := by
  rw [Safety.pdBit, addMark_space h, addSpace_mark (by simp; omega)]
  simp

/-- Pulse-distance bits on a list of even length. -/
theorem foldl_pdBit (u : Nat) (bs : List Bool) (l : List Nat) (h : l.length % 2 = 0) :
    bs.foldl (Safety.pdBit u) l = l ++ bs.flatMap (fun b => [u, if b then 3 * u else u]) := by
  induction bs generalizing l with
  | nil => simp
  | cons b bs ih =>
    rw [List.foldl_cons, pdBit_append u b l h, ih _ (by simp; omega)]
    simp

theorem greenPair_eq : greenPair = fun b => [560, if b then 3 * 560 else 560] := rfl

theorem length_flatMap_greenPair (bs : List Bool) : (bs.flatMap greenPair).length = 2 * bs.length := by
  induction bs with
  | nil => rfl
  | cons b bs ih => simp [greenPair] at ih ⊢; omega

@[simp] theorem bufBits_length (bytes : List Byte) (w : Nat) : (bufBits bytes w).length = w := by simp [bufBits]

@[simp] theorem wireBits_length (g : GBuf) : (wireBits g).length = 104 := by simp [wireBits]

theorem mem_flatMap_greenPair {bs : List Bool} {x : Nat} (h : x ∈ bs.flatMap greenPair) : x = 560 ∨ x = 1680 := by
  obtain ⟨b, _, hb⟩ := List.mem_flatMap.1 h
  cases b <;> simp [greenPair] at hb <;> omega

theorem Fits_greenBits (bs : List Bool) (h : bs.length ≤ 104) :
    Fits ([9000, 4500] ++ bs.flatMap greenPair ++ [560]) := by
  constructor
  · have := length_flatMap_greenPair bs; simp at this ⊢; omega
  · intro x hx
    simp only [List.mem_append, List.mem_cons, List.not_mem_nil, or_false] at hx
    rcases hx with (hx | hx) | hx
    · omega
    · have := mem_flatMap_greenPair hx; omega
    · omega

/-- Every Green frame fits the store. -/
theorem Fits_greenFrame (g : GBuf) : Fits (greenFrame g) := Fits_greenBits _ (by simp)

theorem Refines_gPktHeader : Refines TL.gPktHeader (fun l => addSpace 4500 (addMark 9000 l)) :=
  (Refines_mark 9000).comp (Refines_space 4500) (Grows_addMark _) (Grows_addSpace _)

theorem Refines_gBlocks (r : GBuf) :
    Refines (TL.gBlocks r 1) (fun l => (bufBits r.toList 104).foldl (Safety.pdBit 560) l) := by
  have g := Grows_foldl (Grows_pdBit 560) (bufBits r.toList 104)
  have h := Refines_pdBits 560 (bufBits r.toList 104)
  generalize hb : (fun l => (bufBits r.toList 104).foldl (Safety.pdBit 560) l) = b at g h ⊢
  have h0 : Refines (fun tl => (TL.gCodeHeader tl).bind (TL.pdBits 560 (bufBits r.toList 104))) b :=
    Refines.comp (g₁ := fun l => l) Refines.id h Grows.id g
  have h1 := Refines.comp (g₂ := fun l => l) h0 Refines.id g Grows.id
  exact Refines.comp (g₂ := fun l => l) h1 Refines.id g Grows.id

theorem Refines_greenPacket (r : GBuf) : Refines (TL.greenPacket r)
    (fun l => addMark 560 ((bufBits r.toList 104).foldl (Safety.pdBit 560) (addSpace 4500 (addMark 9000 l)))) := by
  have g := Grows_foldl (Grows_pdBit 560) (bufBits r.toList 104)
  have h := Refines_gBlocks r
  generalize hb : (fun l => (bufBits r.toList 104).foldl (Safety.pdBit 560) l) = b at g h
  have hb' : ∀ l, (bufBits r.toList 104).foldl (Safety.pdBit 560) l = b l := fun l => congrFun hb l
  simp only [hb']
  have h1 := Refines.comp Refines_gPktHeader h (Grows_header 9000 4500) g
  exact Refines.comp h1 (Refines_mark 560) ((Grows_header 9000 4500).comp g) (Grows_addMark 560)

/-- The Green packet on an empty list. -/
theorem greenPacket_nil (bs : List Bool) :
    addMark 560 (bs.foldl (Safety.pdBit 560) (addSpace 4500 (addMark 9000 []))) =
      [9000, 4500] ++ bs.flatMap greenPair ++ [560] := by
  have h : addSpace 4500 (addMark 9000 []) = [9000, 4500] := by simp [addSpace, addMark]
  have h2 : ([9000, 4500] : List Nat).length % 2 = 0 := by simp
  rw [h, foldl_pdBit 560 bs _ h2, ← greenPair_eq, addMark_space]
  have := length_flatMap_greenPair bs
  rw [List.length_append, this]
  simp

/-- Every Green frame has 211 elements (R172). -/
theorem greenFrame_length (g : GBuf) : (greenFrame g).length = 211 := by
  have := length_flatMap_greenPair (wireBits g)
  rw [wireBits_length] at this
  simp [greenFrame] at this ⊢
  omega

/-! ### The reversed buffer on the wire -/

theorem toList_map (f : Byte → Byte) (g : GBuf) : (g.map f).toList = g.toList.map f := rfl

theorem toList_length (g : GBuf) : g.toList.length = 13 := rfl

/-- The stream of the reversed buffer is the wire order of the buffer (R55). -/
theorem bufBits_reverse (g : GBuf) : bufBits (g.map bitRev8).toList 104 = wireBits g := by
  refine List.map_congr_left fun j hj => ?_
  have hj : j < 104 := List.mem_range.1 hj
  have hk : j / 8 < g.toList.length := by rw [toList_length]; omega
  rw [toList_map, List.getD_eq_getElem _ _ (by simpa using hk), List.getD_eq_getElem _ _ hk, List.getElem_map,
    bitRev8_getLsbD _ (by omega)]
  congr 1
  omega

end Sys2Proof.Machine
end

