-- ==== Sys2Proof/Laws/Store.lean ====
section
/-! SUPPORT. Every composite Timeline operation keeps the store well formed. -/

namespace Sys2Proof.Machine

open Sys2Proof.Safety

/-- An operation that keeps the store well formed whenever it answers. -/
def KeepsStore (f : TL → Except Fault TL) : Prop := ∀ a b, StoreOk a → f a = .ok b → StoreOk b

theorem KeepsStore.id : KeepsStore .ok := by
  intro a b h e
  cases e
  exact h

theorem KeepsStore.bind {f g : TL → Except Fault TL} (hf : KeepsStore f) (hg : KeepsStore g) :
    KeepsStore (fun tl => (f tl).bind g) := by
  intro a b h e
  obtain ⟨t, h1, h2⟩ := bind_eq_ok.1 e
  exact hg t b (hf a t h h1) h2

theorem KeepsStore.mark (d : Nat) : KeepsStore (TL.mark d) := fun _ _ => StoreOk_mark

theorem KeepsStore.space (d : Nat) : KeepsStore (TL.space d) := fun _ _ => StoreOk_space

theorem KeepsStore.load (l : List Nat) : KeepsStore (TL.load l) := fun _ _ => StoreOk_load

theorem KeepsStore.append (other : List Nat) : KeepsStore (TL.append other) := by
  intro a b h e
  unfold TL.append at e
  split at e <;> exact StoreOk_replay h e

theorem KeepsStore.manBit (u : Nat) (b : Bool) : KeepsStore (TL.manBit u b) := by
  cases b
  · exact (KeepsStore.mark u).bind (KeepsStore.space u)
  · exact (KeepsStore.space u).bind (KeepsStore.mark u)

theorem KeepsStore.pdBit (u : Nat) (b : Bool) : KeepsStore (TL.pdBit u b) := by
  cases b
  · exact (KeepsStore.mark u).bind (KeepsStore.space u)
  · exact (KeepsStore.mark u).bind (KeepsStore.space (3 * u))

theorem KeepsStore.manBits (u : Nat) (bs : List Bool) : KeepsStore (TL.manBits u bs) := by
  induction bs with
  | nil => exact KeepsStore.id
  | cons b rest ih => exact (KeepsStore.manBit u b).bind ih

theorem KeepsStore.pdBits (u : Nat) (bs : List Bool) : KeepsStore (TL.pdBits u bs) := by
  induction bs with
  | nil => exact KeepsStore.id
  | cons b rest ih => exact (KeepsStore.pdBit u b).bind ih

theorem KeepsStore.oBlocks (code : BitVec 34) (n : Nat) : KeepsStore (TL.oBlocks code n) := by
  induction n with
  | zero => exact KeepsStore.id
  | succ n ih =>
    exact ((((KeepsStore.mark _).bind (KeepsStore.space _)).bind (KeepsStore.manBits _ _)).bind KeepsStore.id).bind ih

/-- `ORANGE_PACKET`. -/
theorem KeepsStore.orangePacket (code : BitVec 34) : KeepsStore (TL.orangePacket code) :=
  (KeepsStore.id.bind (KeepsStore.oBlocks code _)).bind (KeepsStore.mark _)

theorem KeepsStore.gBlocks (r : GBuf) (n : Nat) : KeepsStore (TL.gBlocks r n) := by
  induction n with
  | zero => exact KeepsStore.id
  | succ n ih => exact ((KeepsStore.id.bind (KeepsStore.pdBits _ _)).bind KeepsStore.id).bind ih

/-- `GREEN_PACKET`. -/
theorem KeepsStore.greenPacket (r : GBuf) : KeepsStore (TL.greenPacket r) :=
  (((KeepsStore.mark _).bind (KeepsStore.space _)).bind (KeepsStore.gBlocks r _)).bind (KeepsStore.mark _)

end Sys2Proof.Machine
end

