-- ==== Sys2Proof/Laws/Build.lean ====
section
/-! SUPPORT. What the build step of each protocol answers, said once: it always answers, with the whole frame in the
store. -/

namespace Sys2Proof.Machine

open Sys2Proof.Safety

/-- `ORANGE_PACKET` on an empty Timeline (R145). -/
theorem TL.orangePacket_holds (code : BitVec 34) {tl : TL} (h : tl.len = 0) :
    ∃ tl', TL.orangePacket code tl = .ok tl' ∧ Holds tl' (orangeFrame code) ∧
      ∀ i, tl'.len ≤ i → Memory.read tl'.mem i = Memory.read tl.mem i := by
  obtain ⟨t, e, hh, hk⟩ := (Refines_orangePacket code).answers tl [] (Holds_nil_iff.2 h) (Fits_orangeFrame code)
  exact ⟨t, e, hh, fun i hi => hk i (.inr hi)⟩

/-- `GREEN_PACKET` on an empty Timeline (R167). -/
theorem TL.greenPacket_holds (r : GBuf) {tl : TL} (h : tl.len = 0) :
    ∃ tl', TL.greenPacket r tl = .ok tl' ∧
      Holds tl' ([9000, 4500] ++ (bufBits r.toList 104).flatMap greenPair ++ [560]) ∧
      ∀ i, tl'.len ≤ i → Memory.read tl'.mem i = Memory.read tl.mem i := by
  have hf := Fits_greenBits (bufBits r.toList 104) (by simp)
  rw [← greenPacket_nil] at hf ⊢
  obtain ⟨t, e, hh, hk⟩ := (Refines_greenPacket r).answers tl [] (Holds_nil_iff.2 h) hf
  exact ⟨t, e, hh, fun i hi => hk i (.inr hi)⟩

/-- The build step of an Orange command (R181). -/
theorem State.buildOrange_eq (s : State) :
    ∃ tl, s.buildOrange = .ok { s with
        phase := .drain, codeO := orangeWord s.cfg (Config.any3 s.draws), tl := tl, rptr := 0, freq := 33,
        rep := Config.repLeft (s.draws + 1), bitIdx := Config.bitIdxLeft (s.draws + 1), draws := s.draws + 2 } ∧
      Holds tl (orangeFrame (orangeWord s.cfg (Config.any3 s.draws))) ∧ (StoreOk s.tl → StoreOk tl) ∧
      ∀ i, tl.len ≤ i → Memory.read tl.mem i = Memory.read s.tl.mem i := by
  obtain ⟨t, e, hh, hk⟩ := TL.orangePacket_holds (orangeWord s.cfg (Config.any3 s.draws)) (tl := s.tl.clear) rfl
  refine ⟨t, ?_, hh, fun h => KeepsStore.orangePacket _ _ _ (StoreOk_clear h) e, hk⟩
  simp only [State.buildOrange, State.packOrange, State.onTL, State.assembleOrange, State.tick, State.withTL, e, map_ok]
  rfl

/-- The build step of a Green command (R182). -/
theorem State.buildGreen_eq (s : State) :
    ∃ tl, let g := greenFill s.greenTlow s.cfg (Config.any3 s.draws) (Config.any8 s.draws) s.gbuf
      let g := { g with b12 := checksum g }
      s.buildGreen = .ok { s with
        phase := .drain, gbuf := g, rbuf := g.map bitRev8, tl := tl, rptr := 0, freq := 38,
        rep := 0, bitIdx := Config.bitIdxLeft (s.draws + 1), draws := s.draws + 2 } ∧
      Holds tl (greenFrame g) ∧ (StoreOk s.tl → StoreOk tl) ∧
      ∀ i, tl.len ≤ i → Memory.read tl.mem i = Memory.read s.tl.mem i := by
  generalize hg : greenFill s.greenTlow s.cfg (Config.any3 s.draws) (Config.any8 s.draws) s.gbuf = g
  obtain ⟨t, e, hh, hk⟩ := TL.greenPacket_holds ({ g with b12 := checksum g }.map bitRev8) (tl := s.tl.clear) rfl
  rw [bufBits_reverse] at hh
  refine ⟨t, ?_, hh, fun h => KeepsStore.greenPacket _ _ _ (StoreOk_clear h) e, hk⟩
  simp only [State.buildGreen, State.packGreen, State.onTL, State.assembleGreen, State.sumGreen, State.reverseGreen,
    State.tick, State.withTL, hg, e, map_ok]
  rfl

/-! ### Transfers from a Timeline whose list is known -/

/-- One transfer of a frame (R183, R185). -/
theorem State.beat_holds {s : State} {l : List Nat} (h : Holds s.tl l) (hp : s.phase = .drain)
    (hr : s.rptr < l.length) :
    s.beat = .ok { s with
          sink  := s.sink ++ [.beat l[s.rptr] (decide (s.rptr + 1 = l.length)) l.length s.freq]
          rptr  := s.rptr + 1
          phase := if s.rptr + 1 = l.length then .idle else .drain } :=
  State.beat_eq_ok.2 (.inr ⟨hp, h.1 ▸ hr, l[s.rptr], by rw [h.2 _ hr, List.getElem?_eq_getElem hr], by rw [h.1]⟩)

/-- The transfers that are still to come from an index on. -/
theorem frameBeats_drop {l : List Nat} {f : BitVec 8} {k : Nat} (hk : k < l.length) :
    (frameBeats l f).drop k =
      .beat l[k] (decide (k + 1 = l.length)) l.length f :: (frameBeats l f).drop (k + 1) := by
  have hl : (frameBeats l f).length = l.length := by simp [frameBeats]
  rw [List.drop_eq_getElem_cons (by omega)]
  simp [frameBeats]

/-- All the transfers that are left (R62, R185). -/
theorem State.beats_holds {n : Nat} {s : State} {l : List Nat} (h : Holds s.tl l) (hp : s.phase = .drain)
    (hr : s.rptr + (n + 1) = l.length) :
    State.beats (n + 1) s = .ok { s with
      phase := .idle, rptr := l.length, sink := s.sink ++ (frameBeats l s.freq).drop s.rptr } := by
  induction n generalizing s with
  | zero =>
    have hlt : s.rptr < l.length := by omega
    have he : s.rptr + 1 = l.length := by omega
    have hd : (frameBeats l s.freq).drop l.length = [] := List.drop_eq_nil_of_le (by simp [frameBeats])
    rw [State.beats, State.beat_holds h hp hlt, bind_ok, frameBeats_drop hlt]
    simp [State.beats, he, hd]
  | succ n ih =>
    have hlt : s.rptr < l.length := by omega
    have hne : ¬ s.rptr + 1 = l.length := by omega
    rw [State.beats, State.beat_holds h hp hlt, bind_ok, frameBeats_drop hlt, if_neg hne]
    have hi := ih (s := { s with
      sink := s.sink ++ [.beat l[s.rptr] (decide (s.rptr + 1 = l.length)) l.length s.freq]
      rptr := s.rptr + 1
      phase := .drain }) h rfl (by simp; omega)
    rw [hi]
    simp

end Sys2Proof.Machine
end

