-- ==== Sys2Proof/Laws/PerInstr.lean ====
section
/-! SUPPORT. Facts about every operation as syntax, one lemma per constructor. -/

namespace Sys2Proof.Laws.WordFits

/-- An operation has a word exactly when the table gives it a pattern (R90, R91) and its operands are in range (R102, R103;
log 15), and the word fits its format (R70). -/
def Statement (i : Instr) : Prop :=
  ((encode i).isSome = (i.isEncoded && WellFormed i)) ∧ ∀ f w, encode i = some (f, w) → w < 2 ^ f.width

/-- A push, of either polarity. -/
theorem push (space : Bool) (d : Nat) : (encodePush space d).isSome = decide (d ≤ Config.durMax) ∧
    ∀ f w, encodePush space d = some (f, w) → w < 2 ^ f.width := by
  unfold encodePush
  by_cases h : d ≤ Config.durMax
  · rw [if_pos h]
    exact ⟨(decide_eq_true h).symm, by rintro _ _ ⟨⟩; exact BitVec.isLt _⟩
  · rw [if_neg h]
    exact ⟨(decide_eq_false h).symm, fun _ _ e => nomatch e⟩

theorem encOrange (c : Cfg) : Statement (.encOrange c) :=
  ⟨rfl, by rintro _ _ ⟨⟩; exact BitVec.isLt _⟩

theorem encGreen (c : Cfg) : Statement (.encGreen c) :=
  ⟨rfl, by rintro _ _ ⟨⟩; exact BitVec.isLt _⟩

theorem tlMark (d : Nat) : Statement (.tlMark d) := push false d

theorem tlSpace (d : Nat) : Statement (.tlSpace d) := push true d

theorem man0 : Statement .man0 :=
  ⟨rfl, by rintro _ _ ⟨⟩; decide⟩

theorem man1 : Statement .man1 :=
  ⟨rfl, by rintro _ _ ⟨⟩; decide⟩

theorem pd0 : Statement .pd0 :=
  ⟨rfl, by rintro _ _ ⟨⟩; decide⟩

theorem pd1 : Statement .pd1 :=
  ⟨rfl, by rintro _ _ ⟨⟩; decide⟩

theorem tlClear : Statement .tlClear := ⟨rfl, fun _ _ h => nomatch h⟩

theorem tlLoad (l : List Nat) : Statement (.tlLoad l) := ⟨rfl, fun _ _ h => nomatch h⟩

theorem tlAppend (l : List Nat) : Statement (.tlAppend l) := ⟨rfl, fun _ _ h => nomatch h⟩

theorem tlRead : Statement .tlRead := ⟨rfl, fun _ _ h => nomatch h⟩

theorem manBit (b : Bool) : Statement (.manBit b) := ⟨rfl, fun _ _ h => nomatch h⟩

theorem manNum (v : Nat) (w : Nat) : Statement (.manNum v w) := ⟨rfl, fun _ _ h => nomatch h⟩

theorem pdBit (b : Bool) : Statement (.pdBit b) := ⟨rfl, fun _ _ h => nomatch h⟩

theorem pdBuf (bytes : List Byte) (w : Nat) : Statement (.pdBuf bytes w) := ⟨rfl, fun _ _ h => nomatch h⟩

theorem orangeCode : Statement .orangeCode := ⟨rfl, fun _ _ h => nomatch h⟩

theorem oPktHeader : Statement .oPktHeader := ⟨rfl, fun _ _ h => nomatch h⟩

theorem oCodeHeader : Statement .oCodeHeader := ⟨rfl, fun _ _ h => nomatch h⟩

theorem oCodeTail : Statement .oCodeTail := ⟨rfl, fun _ _ h => nomatch h⟩

theorem oPktTail : Statement .oPktTail := ⟨rfl, fun _ _ h => nomatch h⟩

theorem orangePacket : Statement .orangePacket := ⟨rfl, fun _ _ h => nomatch h⟩

theorem greenBytes : Statement .greenBytes := ⟨rfl, fun _ _ h => nomatch h⟩

theorem greenCsum : Statement .greenCsum := ⟨rfl, fun _ _ h => nomatch h⟩

theorem bitrev8 (b : Byte) : Statement (.bitrev8 b) := ⟨rfl, fun _ _ h => nomatch h⟩

theorem greenReverse : Statement .greenReverse := ⟨rfl, fun _ _ h => nomatch h⟩

theorem gPktHeader : Statement .gPktHeader := ⟨rfl, fun _ _ h => nomatch h⟩

theorem gCodeHeader : Statement .gCodeHeader := ⟨rfl, fun _ _ h => nomatch h⟩

theorem gCodeTail : Statement .gCodeTail := ⟨rfl, fun _ _ h => nomatch h⟩

theorem gPktTail : Statement .gPktTail := ⟨rfl, fun _ _ h => nomatch h⟩

theorem greenPacket : Statement .greenPacket := ⟨rfl, fun _ _ h => nomatch h⟩

theorem cmdAccept (cw : CmdWord) : Statement (.cmdAccept cw) := ⟨rfl, fun _ _ h => nomatch h⟩

theorem drainBeat : Statement .drainBeat := ⟨rfl, fun _ _ h => nomatch h⟩

theorem send (c : Cfg) : Statement (.send c) := ⟨rfl, fun _ _ h => nomatch h⟩

theorem reset : Statement .reset := ⟨rfl, fun _ _ h => nomatch h⟩

end Sys2Proof.Laws.WordFits
end

