-- ==== Sys2Proof/Tests/Slice0.lean ====
section
/-! SUPPORT. Tests on fixed values, each from the vectors of 95_test_vectors.md (named in the comment) or worked by hand
from a rule, and one witness for the hypotheses of each obligation that has any. -/

namespace Sys2Proof.Tests

open Sys2Proof.Machine Sys2Proof.Safety

/-! ### Helpers -/

/-- The reset state with a Timeline that holds `l`. -/
def on (l : List Nat) : State :=
  { State.reset with tl := { mem := l.zipIdx.map (fun p => (p.2, p.1)), len := l.length } }

/-- The list the Timeline holds after an operation, where the operation answers a next state. -/
def after (o : Host.Outcome State Fault Refusal) : Option (List Nat) :=
  match o with
  | .next t => match TL.read t.tl with
    | .ok l => some l
    | .error _ => none
  | .fault _ => none
  | .refused _ => none

/-- The state after an operation; the reset state where it stops. -/
def stateAfter (o : Host.Outcome State Fault Refusal) : State :=
  match o with
  | .next t => t
  | .fault _ => State.reset
  | .refused _ => State.reset

/-- The fault an operation stops with. -/
def faultOf (o : Host.Outcome State Fault Refusal) : Option Fault :=
  match o with
  | .next _ => none
  | .fault f => some f
  | .refused _ => none

/-- The refusal an operation stops with. -/
def refusalOf (o : Host.Outcome State Fault Refusal) : Option Refusal :=
  match o with
  | .next _ => none
  | .fault _ => none
  | .refused r => some r

/-- A buffer from its bytes. -/
def bytes (b0 b1 b2 b3 b4 b5 b6 b7 b8 b9 b10 b11 b12 : Byte) : GBuf :=
  { b0 := b0, b1 := b1, b2 := b2, b3 := b3, b4 := b4, b5 := b5, b6 := b6, b7 := b7, b8 := b8, b9 := b9, b10 := b10,
    b11 := b11, b12 := b12 }

/-- The fixture configuration: on, Cool, Low, 24, swing off, sleep off. -/
def fixture : Cfg := ⟨true, 0, 0, 24, false, false⟩

/-- The fixture's buffer (V-G1). -/
def fixtureBuf : GBuf := bytes 0xC3 0x87 0xE0 0 0x60 0 0x20 0 0 0x20 0 0x05 0xCF

/-- Pins that only raise `out_ready`. -/
def ready : Pins := { quietPins with outReady := true }

/-- A drain of a two-element Timeline about to begin. -/
def draining : State := { on [5, 7] with phase := .drain, freq := 33 }

/-! ### Well-formedness: an ill-formed term for each check -/

theorem test_wf_tlMark : WellFormed (.tlMark 65536) = false ∧ WellFormed (.tlMark 65535) = true := by decide

theorem test_wf_tlSpace : WellFormed (.tlSpace 65536) = false ∧ WellFormed (.tlSpace 65535) = true := by decide

theorem test_wf_tlLoad_value : WellFormed (.tlLoad [1, 65536]) = false ∧ WellFormed (.tlLoad [1, 65535]) = true := by
  decide

theorem test_wf_tlLoad_length :
    WellFormed (.tlLoad (List.replicate 257 0)) = false ∧ WellFormed (.tlLoad (List.replicate 256 0)) = true := by
  decide +kernel

theorem test_wf_tlAppend_value : WellFormed (.tlAppend [65536]) = false ∧ WellFormed (.tlAppend []) = true := by decide

theorem test_wf_tlAppend_length : WellFormed (.tlAppend (List.replicate 257 0)) = false := by decide +kernel

theorem test_wf_manNum : WellFormed (.manNum 0 65) = false ∧ WellFormed (.manNum 0 64) = true := by decide

theorem test_wf_pdBuf : WellFormed (.pdBuf [0x12] 9) = false ∧ WellFormed (.pdBuf [0x12] 8) = true := by decide

/-! ### Decoding: words written out bit by bit from R71 to R73 -/

/-- 0 1 000 00 00011000 0 0 (R71's example). -/
theorem test_decode_encOrange : decode .cw 0b01000000001100000 = .ok (.encOrange fixture) := by decide

/-- 0 0 100 11 00011110 1 1: power off, Auto, Auto, 30, swing, sleep (V-O2). -/
theorem test_decode_encOrange_fields :
    decode .cw 0b00100110001111011 = .ok (.encOrange ⟨false, 4, 3, 30, true, true⟩) := by decide

/-- 1 1 010 11 00011110 0 1: on, Fan, Auto, 30, swing off, sleep (V-G2). -/
theorem test_decode_encGreen : decode .cw 0b11010110001111001 = .ok (.encGreen ⟨true, 2, 3, 30, false, true⟩) := by
  decide

/-- 0 and 2976 (R72's example). -/
theorem test_decode_tlMark : decode .pw 0b00000101110100000 = .ok (.tlMark 2976) := by decide

/-- 1 and 4500 (R72's example). -/
theorem test_decode_tlSpace : decode .pw 0b10001000110010100 = .ok (.tlSpace 4500) := by decide

/-- The four bit words (R73). -/
theorem test_decode_bits : decode .bw 0b00 = .ok .man0 ∧ decode .bw 0b01 = .ok .man1 ∧ decode .bw 0b10 = .ok .pd0 ∧
    decode .bw 0b11 = .ok .pd1 := by decide

theorem test_decode_rejects : decode .cw 0x20000 = .error .cwTooWide ∧ decode .pw 0x20000 = .error .pwTooWide ∧
    decode .bw 4 = .error .bwTooWide := by decide

theorem test_encode : encode (.encGreen ⟨true, 2, 3, 30, false, true⟩) = some (.cw, 0x1AC79) ∧
    encode (.tlSpace 2976) = some (.pw, 0x10BA0) ∧ encode .pd0 = some (.bw, 2) ∧ encode .tlClear = none ∧
    encode (.tlMark 65535) = some (.pw, 0x0FFFF) ∧ encode (.tlMark 65536) = none ∧ encode (.tlSpace 65536) = none := by
  decide

theorem test_table_word : decodeTableWord 24 0x18060 = some (.encGreen fixture) ∧ decodeTableWord 8 3 = some .pd1 := by
  decide

/-- The word at the head of the stimulus runs as the first operation after reset. -/
theorem test_fetch_word : after (step (State.reset.withFetchWord 8 1)) = some [0, 992, 992] := by decide

/-- R38: an operation that writes the Timeline has no effect on a draining block; a reading one runs. -/
theorem test_drain : after (step { draining with stim := [.op .tlClear] }) = some [5, 7] ∧
    (stateAfter (step { draining with stim := [.op .tlRead] })).ret = .durations [5, 7] := by decide

/-- In BUILD a test bench's operations run, the empty header of R141 in every phase. -/
theorem test_build : after (step { on [5, 7] with phase := .build, stim := [.op (.tlMark 9)] }) = some [5, 7, 9] ∧
    after (step { draining with stim := [.op .oPktHeader] }) = some [5, 7] := by decide

/-! ### The Timeline unit -/

/-- V-T1: ends in mark, mark. -/
theorem test_tlMark_merges : after (exec (.tlMark 992) (on [2976, 3968, 992])) = some [2976, 3968, 1984] := by decide

/-- V-T1: 65535 and 1 is a fault, never a wrap. -/
theorem test_tlMark_overflow : faultOf (exec (.tlMark 1) (on [65535])) = some .durationOverflow := by decide

/-- V-T1: the synthetic zero-length mark. -/
theorem test_tlSpace_empty : after (exec (.tlSpace 992) (on [])) = some [0, 992] := by decide

/-- V-T1: ends in space, space. -/
theorem test_tlSpace_merges : after (exec (.tlSpace 992) (on [2976, 2976])) = some [2976, 3968] := by decide

/-- V-T4. -/
theorem test_tlClear : after (exec .tlClear (on [992, 992])) = some [] := by decide

/-- V-T4: verbatim, nothing merged. -/
theorem test_tlLoad : after (exec (.tlLoad [5, 0, 0, 7]) (on [1, 2, 3, 4, 5])) = some [5, 0, 0, 7] := by decide

/-- V-T2 (e). -/
theorem test_tlAppend_leading_zero : after (exec (.tlAppend [0, 7]) (on [5, 5])) = some [5, 12] := by decide

/-- V-T2 (f). -/
theorem test_tlAppend_inner_zero : after (exec (.tlAppend [3, 0, 4]) (on [5, 5])) = some [5, 5, 3, 0, 4] := by decide

/-- V-T4. -/
theorem test_tlRead : (stateAfter (exec .tlRead (on [0, 992, 992]))).ret = .durations [0, 992, 992] := by decide

/-! ### The bit encoder -/

/-- V-M2. -/
theorem test_man0 : after (exec .man0 (on [2976, 3968, 992])) = some [2976, 3968, 1984, 992] := by decide

/-- V-M2. -/
theorem test_man1 : after (exec .man1 (on [2976, 2976])) = some [2976, 3968, 992] := by decide

/-- V-M2. -/
theorem test_manBit : after (exec (.manBit true) (on [])) = some [0, 992, 992] ∧
    after (exec (.manBit false) (on [])) = some [992, 992] := by decide

/-- V-M1. -/
theorem test_manNum : after (exec (.manNum 2 2) (on [2976, 2976])) = some [2976, 3968, 1984, 992] := by decide

/-- V-M3: missing high bits are zeros. -/
theorem test_manNum_zeros : after (exec (.manNum 3 4) (on [])) = some [992, 992, 992, 1984, 992, 992, 992] := by decide

/-- V-P1. -/
theorem test_pd0 : after (exec .pd0 (on [9000, 4500])) = some [9000, 4500, 560, 560] := by decide

/-- V-P1: the mark merges. -/
theorem test_pd1 : after (exec .pd1 (on [560])) = some [1120, 1680] := by decide

/-- V-P1. -/
theorem test_pdBit : after (exec (.pdBit true) (on [])) = some [560, 1680] ∧
    after (exec (.pdBit false) (on [])) = some [560, 560] := by decide

/-- V-P2: A0, 3 bits. -/
theorem test_pdBuf : after (exec (.pdBuf [0xA0] 3) (on [9000, 4500])) =
    some [9000, 4500, 560, 1680, 560, 560, 560, 1680] := by decide

/-- R127: the second byte follows the first (0x01 ends in a 1, 0x80 begins with one). -/
theorem test_pdBuf_bytes : after (exec (.pdBuf [0x01, 0x80] 9) (on [])) =
    some [560, 560, 560, 560, 560, 560, 560, 560, 560, 560, 560, 560, 560, 560, 560, 1680, 560, 1680] := by decide

/-! ### The Orange framer -/

/-- V-O2: power off, Auto, Auto, 30, swing, sleep. -/
theorem test_orangeCode : (stateAfter (exec .orangeCode
    { State.reset with cfg := ⟨false, 4, 3, 30, true, true⟩ })).codeO = 0x0F27C0002 := by decide

/-- V-O5: temperature 0 wraps to 1. -/
theorem test_orangeCode_wraps : (stateAfter (exec .orangeCode
    { State.reset with cfg := ⟨true, 0, 0, 0, false, false⟩ })).codeO = 0x240080002 := by decide

/-- R141 and R143: nothing is issued. -/
theorem test_orange_empty : after (exec .oPktHeader (on [])) = some [] ∧ after (exec .oCodeTail (on [7])) = some [7] := by
  decide

/-- R142's example. -/
theorem test_oCodeHeader : after (exec .oCodeHeader (on [])) = some [2976, 2976] := by decide

/-- R144's example. -/
theorem test_oPktTail : after (exec .oPktTail (on [1984, 992])) = some [1984, 992, 3968] := by decide

/-- The first block of V-O1. -/
def fixtureBlock : List Nat :=
  [2976, 3968, 1984, 992, 992, 1984, 1984] ++ List.replicate 12 992 ++ [1984, 1984, 992, 992, 1984, 1984]
    ++ List.replicate 32 992 ++ [1984, 1984, 992]

/-- V-O1: the complete frame. -/
theorem test_orangePacket : after (exec .orangePacket { State.reset with codeO := 0x240480002 }) =
    some (fixtureBlock ++ fixtureBlock ++ fixtureBlock ++ [3968]) := by decide +kernel

/-! ### The Green framer -/

/-- V-G2: on, Fan, Auto, 30, swing off, sleep. -/
theorem test_greenBytes : (stateAfter (exec .greenBytes
    { State.reset with cfg := ⟨true, 2, 3, 30, false, true⟩ })).gbuf =
    bytes 0xC3 0xB7 0xE0 0 0xA0 0 0xC4 0 0 0x20 0 0x05 0 := by decide

/-- V-G2: off, Auto, Auto, 15, swing, sleep. -/
theorem test_greenBytes_swing : (stateAfter (exec .greenBytes
    { State.reset with cfg := ⟨false, 4, 3, 15, true, true⟩ })).gbuf =
    bytes 0xC3 0x38 0xE0 0 0xA0 0 0x04 0 0 0 0 0x05 0 := by decide

/-- Program P4: Heat, High, 23, sleep, with either value of `GREEN_TLOW`: byte 1, and the checksum. -/
theorem test_green_tlow :
    (let g := fun k => (stateAfter (exec .greenBytes
        { State.reset with greenTlow := k, cfg := ⟨true, 1, 2, 23, false, true⟩ })).gbuf;
      (g .mod8).b1 = 0x7F ∧ checksum (g .mod8) = 0xEB ∧ (g .srcAnd8).b1 = 0x47 ∧ checksum (g .srcAnd8) = 0xB3) ∧
    State.reset.greenTlow = .mod8 := by decide

/-- V-G2: the sum 0x3E3. -/
theorem test_greenCsum : (stateAfter (exec .greenCsum
    { State.reset with gbuf := bytes 0xC3 0xB7 0xE0 0 0xA0 0 0xC4 0 0 0x20 0 0x05 0 })).gbuf.b12 = 0xE3 := by decide

/-- V-G4. -/
theorem test_bitrev8 : (stateAfter (exec (.bitrev8 0x87) State.reset)).ret = .byte 0xE1 ∧
    (stateAfter (exec (.bitrev8 0x12) State.reset)).ret = .byte 0x48 := by decide

/-- V-G1. -/
theorem test_greenReverse : (stateAfter (exec .greenReverse { State.reset with gbuf := fixtureBuf })).rbuf =
    bytes 0xC3 0xE1 0x07 0 0x06 0 0x04 0 0 0x04 0 0xA0 0xF3 := by decide

/-- R164's example. -/
theorem test_gPktHeader : after (exec .gPktHeader (on [])) = some [9000, 4500] := by decide

/-- R165: nothing is issued. -/
theorem test_green_empty : after (exec .gCodeHeader (on [7])) = some [7] ∧ after (exec .gCodeTail (on [])) = some [] := by
  decide

/-- R166's example. -/
theorem test_gPktTail : after (exec .gPktTail (on [560, 1680])) = some [560, 1680, 560] := by decide

/-- V-G1: the length. -/
theorem test_greenPacket :
    (stateAfter (exec .greenPacket { State.reset with rbuf := fixtureBuf.map bitRev8 })).tl.len = 211 := by decide +kernel

/-! ### Commands -/

/-- R180 on V-O2's word 0x04C7B. -/
theorem test_cmdAccept : stateAfter (exec (.cmdAccept 0x04C7B) State.reset) =
    { State.reset with phase := .build, proto := .orange, cfg := ⟨false, 4, 3, 30, true, true⟩ } := by decide

/-- V-C1, step 4. -/
theorem test_encOrange : (stateAfter (exec (.encOrange fixture) State.reset)).codeO = 0x240480002 := by
  decide +kernel

/-- V-C1, step 10. -/
theorem test_encGreen : let t := stateAfter (exec (.encGreen fixture) State.reset)
    (t.gbuf, t.tl.len, t.freq) = (fixtureBuf, 211, 38) := by decide +kernel

/-- R183, R185: the last transfer. -/
theorem test_drainBeat : stateAfter (exec .drainBeat { draining with rptr := 1 }) =
    { draining with rptr := 2, phase := .idle, sink := [.beat 7 true 2 33] } := by decide

/-- P6, step 4: reset in mid-frame. -/
theorem test_reset : stateAfter (exec .reset { draining with rptr := 1 }) =
    { draining with tl := { draining.tl with len := 0 }, phase := .idle } := by decide

/-- R61: a host sequence begun while a frame is drained waits. -/
theorem test_send_waits : stateAfter (exec (.send fixture) draining) = draining := by decide

/-! ### Witnesses: for each obligation with hypotheses, states and operands that meet all of them, clause by clause -/

/-- The state after the fixture's Orange command: `RPTR` 0, the whole frame still to come. -/
def afterOrange : State := stateAfter (exec (.encOrange fixture) State.reset)

theorem witness_DecodeOfEncodeIsTheOperation :
    Instr.isEncoded (.tlMark 65535) = true ∧ WellFormed (.tlMark 65535) = true ∧
    Instr.isEncoded (.encGreen ⟨true, 7, 3, 255, true, true⟩) = true := by decide

theorem witness_EveryWordDecodesAndEncodesBack :
    131071 < 2 ^ WordFormat.cw.width ∧ 2 ^ WordFormat.cw.width ≤ 131072 ∧ 3 < 2 ^ WordFormat.bw.width ∧
    2 ^ WordFormat.bw.width ≤ 4 ∧ Instr.isEncoded .tlClear = false ∧ WellFormed (.tlMark 65536) = false := by decide

theorem witness_StepRunsThePresentedOperation :
    (Presents { State.reset with stim := [.word .bw 3] } .pd1 [] ∧ State.reset.phase ≠ .drain) ∧
    (Presents { draining with stim := [.op .gCodeTail] } .gCodeTail [] ∧ runsInDrain .gCodeTail = true) ∧
    (Presents { draining with stim := [.op .tlClear] } .tlClear [] ∧ draining.phase = .drain ∧
      runsInDrain .tlClear = false) ∧
    decodeTableWord 24 0x1FFFF ≠ none :=
  ⟨⟨.inr ⟨_, _, rfl, by decide⟩, by decide⟩, ⟨.inl rfl, by decide⟩, ⟨.inl rfl, by decide, by decide⟩, by decide⟩

/-- One edge for each clause: reset in `DRAIN` (with `out_ready` too), transfer, stall, the two builds, accept, quiet. -/
theorem witness_ClockEdgePriority :
    { ready with rst := true }.rst = true ∧
    (ready.rst = false ∧ draining.phase = .drain ∧ ready.outReady = true) ∧
    (quietPins.rst = false ∧ quietPins.outReady = false ∧ quietPins.cmdValid = false) ∧
    ({ State.reset with phase := .build } : State).proto = .orange ∧
    ({ State.reset with phase := .build, proto := .green } : State).phase = .build ∧
    (State.reset.phase = .idle ∧ { quietPins with cmdValid := true }.cmdValid = true) := by decide

theorem witness_ResetPinWritesFiveRegisters :
    ({ draining with stim := [.pins { ready with rst := true }] } : State).stim = .pins { ready with rst := true } :: [] ∧
    { ready with rst := true }.rst = true := by decide

/-- The state after the fixture's Orange command meets the invariant in `DRAIN`. -/
theorem afterOrange_inv : Inv afterOrange ∧ afterOrange.phase = .drain ∧ afterOrange.stim = [] := by
  obtain ⟨tl, e, hh, hs, -⟩ := State.buildOrange_eq (State.reset.accept .orange fixture)
  have hex : afterOrange = stateAfter (outcome ((State.reset.accept .orange fixture).buildOrange)) := rfl
  rw [hex, e]
  refine ⟨⟨hs (by decide), by simp [stateAfter], fun _ => ⟨hh, rfl, ?_, [], ?_⟩⟩, rfl, rfl⟩
  · exact Nat.lt_of_lt_of_eq (orangeFrame_pos _) hh.1.symm
  · simp [stateAfter, State.accept, State.latch, State.reset]

/-- In `DRAIN`, a quiet edge; in `IDLE`, a `TL_SPACE` a test bench presents. -/
theorem witness_StepKeepsInvariant :
    (Inv afterOrange ∧ step afterOrange = .next afterOrange.popStim) ∧
    (Inv State.reset ∧
      step (State.reset.withFetchWord 8 1) = .next (stateAfter (step (State.reset.withFetchWord 8 1)))) := by
  obtain ⟨h1, h2, h3⟩ := afterOrange_inv
  have quiet : ∀ s : State, s.stim = [] → s.phase = .drain → step s = .next s.popStim := by
    intro s hs hp
    simp [step, fetch, hs, edgeFetch, quietPins, hp]
  exact ⟨⟨h1, quiet _ h3 h2⟩, ⟨by decide, by decide, fun h => absurd h (by decide)⟩, rfl⟩

theorem witness_OperationsKeepStoreWellFormed :
    StoreOk (on [5, 7]).tl ∧ after (exec (.tlMark 65535) (on [5, 7])) = some [5, 7, 65535] := by decide

/-- One state for each phase. -/
theorem witness_ClockEdgesNeverStop :
    (Inv State.reset ∧ AtPorts State.reset) ∧
    (Inv { State.reset with phase := .build } ∧ AtPorts { State.reset with phase := .build }) ∧
    (Inv afterOrange ∧ AtPorts afterOrange) := by
  obtain ⟨h1, -, h3⟩ := afterOrange_inv
  exact ⟨⟨⟨by decide, by decide, fun h => absurd h (by decide)⟩, .inl rfl⟩,
    ⟨⟨by decide, by decide, fun h => absurd h (by decide)⟩, .inl rfl⟩, h1, .inl h3⟩

/-- Odd length up to the largest sum, even length, and the two ends of the operand. -/
theorem witness_TlMarkStoresOneElement :
    (Holds (on [65000]).tl [65000] ∧ Fits (addMark 535 [65000])) ∧
    (Holds (on [5, 7]).tl [5, 7] ∧ Fits (addMark 65535 [5, 7])) ∧ (Holds (on []).tl [] ∧ Fits (addMark 0 [])) := by
  decide

/-- Empty, even and odd length. -/
theorem witness_TlSpaceStoresItsElements :
    (Holds (on []).tl [] ∧ Fits (addSpace 65535 []) ∧ (on []).tl.len = 0) ∧
    (Holds (on [5, 65000]).tl [5, 65000] ∧ Fits (addSpace 535 [5, 65000]) ∧ (on [5, 65000]).tl.len ≠ 0) ∧
    (Holds (on [5]).tl [5] ∧ Fits (addSpace 0 [5])) := by decide

/-- A merge and a new element that do not fit, and a full store. -/
theorem witness_StoreBoundsFault :
    (Holds (on [65535]).tl [65535] ∧ Fits [65535] ∧ ¬ Fits (addMark 1 [65535])) ∧
    (Holds (on [5, 65535]).tl [5, 65535] ∧ Fits [5, 65535] ∧ ¬ Fits (addSpace 1 [5, 65535])) ∧
    ¬ Fits (addMark 65536 []) := by decide

/-- A last mark and a last space at the largest duration, into which each operation merges; a literal one above it; the
largest widths. `witness_StoreBoundsFault_full` is the store without room. -/
theorem witness_CompositeOperationsFaultAtTheBounds :
    (Holds (on [65535]).tl [65535] ∧ Fits [65535] ∧ Holds (on [5, 65535]).tl [5, 65535] ∧ Fits [5, 65535]) ∧
    ¬ Fits [65536] ∧ ¬ Fits (appendTo [1] [65535]) ∧ ¬ Fits (appendTo [0, 1] [5, 65535]) ∧
    ¬ Fits (manBit 992 [65535] false) ∧ ¬ Fits (manBit 992 [5, 65535] true) ∧
    ¬ Fits ((numBits 0 64).foldl (manBit 992) [65535]) ∧
    ¬ Fits (Safety.pdBit 560 [65535] false) ∧ ¬ Fits (Safety.pdBit 560 [65535] true) ∧
    (16 ≤ 8 * ([0xC3, 0x12] : List Byte).length ∧ ¬ Fits ((bufBits [0xC3, 0x12] 16).foldl (Safety.pdBit 560) [65535])) ∧
    ¬ Fits (addSpace 2976 (addMark 2976 [65535])) ∧ ¬ Fits (addMark 3968 [65535]) ∧
    ¬ Fits (addSpace 4500 (addMark 9000 [65535])) ∧ ¬ Fits (addMark 560 [65535]) := by decide +kernel

/-- A full store. -/
theorem witness_StoreBoundsFault_full :
    Holds { mem := Memory.writeFrom [] 0 (List.replicate 256 7), len := 256 } (List.replicate 256 7) ∧
    Fits (List.replicate 256 7) ∧ ¬ Fits (addMark 1 (List.replicate 256 7)) := by
  have hl : (List.replicate 256 7 : List Nat).length = 256 := List.length_replicate
  refine ⟨⟨hl.symm, fun i hi => ?_⟩, ⟨Nat.le_of_eq hl, fun x hx => ?_⟩, fun h => ?_⟩
  · rw [Memory.read_writeFrom, if_pos ⟨Nat.zero_le i, by omega⟩]
    rfl
  · rw [List.eq_of_mem_replicate hx]
    omega
  · have h1 := h.1
    rw [addMark, if_neg (by omega), List.length_append, hl] at h1
    exact absurd h1 (by decide)

theorem witness_TlLoadStoresVerbatim : Fits [0, 65535, 0] ∧ Fits [] := by decide

/-- With and without a leading zero. -/
theorem witness_TlAppendReplays :
    (Holds (on [5, 5]).tl [5, 5] ∧ Fits (appendTo [0, 7] [5, 5])) ∧ Fits (appendTo [3, 0, 4] [5, 5]) ∧
    (Holds (on []).tl [] ∧ Fits (appendTo [0, 7] [])) := by decide

theorem witness_TlReadGivesTheList : Holds (on [0, 992]).tl [0, 992] ∧ Holds (on []).tl [] := by decide

theorem witness_PushesConserveTime :
    Holds (on [5, 7]).tl [5, 7] ∧ exec (.tlMark 9) (on [5, 7]) = .next (stateAfter (exec (.tlMark 9) (on [5, 7]))) ∧
    Holds (on []).tl [] ∧ exec (.tlSpace 9) (on []) = .next (stateAfter (exec (.tlSpace 9) (on []))) :=
  ⟨by decide, rfl, by decide, rfl⟩

theorem witness_PushSetsCurrentPolarity :
    exec (.tlMark 9) (on [5]) = .next (stateAfter (exec (.tlMark 9) (on [5]))) ∧
    exec (.tlSpace 9) (on [5]) = .next (stateAfter (exec (.tlSpace 9) (on [5]))) := ⟨rfl, rfl⟩

/-- Operations that begin with a space, and operations that begin with marks of which one is not zero. -/
theorem witness_AppendEqualsReplayedOperations :
    (Holds (on [5, 5]).tl [5, 5] ∧ runPushes [(true, 7)] { mem := [], len := 0 } = .ok (on [0, 7]).tl ∧
      Holds (on [0, 7]).tl [0, 7] ∧ leadingMarks [(true, 7)] = []) ∧
    (runPushes [(false, 0), (false, 3), (true, 4)] { mem := [], len := 0 } = .ok (on [3, 4]).tl ∧
      Holds (on [3, 4]).tl [3, 4] ∧ 0 < (leadingMarks [(false, 0), (false, 3), (true, 4)]).sum) :=
  ⟨⟨by decide, rfl, by decide, by decide⟩, rfl, by decide, by decide⟩

theorem witness_ManchesterBitOperations :
    Holds (on [2976, 2976]).tl [2976, 2976] ∧ Fits (manBit 992 [2976, 2976] true) ∧
    Fits (manBit 992 [2976, 2976] false) ∧ Holds (on [64543]).tl [64543] ∧ Fits (manBit 992 [64543] false) := by decide

theorem witness_PulseDistanceBitOperations :
    Holds (on [9000, 4500]).tl [9000, 4500] ∧ Fits (pdBit 560 [9000, 4500] true) ∧
    Fits (pdBit 560 [9000, 4500] false) := by decide

/-- The widths 64 and 0. -/
theorem witness_ManNumEncodesMostSignificantFirst :
    Holds (on []).tl [] ∧ Fits ((numBits 0x240480002 64).foldl (manBit 992) []) ∧ Fits ((numBits 3 0).foldl (manBit 992) [])
    := by decide +kernel

/-- A width of every bit of the buffer, and 0. -/
theorem witness_PdBufEncodesTheStream :
    16 ≤ 8 * ([0xC3, 0x12] : List Byte).length ∧ Holds (on [9000, 4500]).tl [9000, 4500] ∧
    Fits ((bufBits [0xC3, 0x12] 16).foldl (pdBit 560) [9000, 4500]) ∧ Fits ((bufBits [] 0).foldl (pdBit 560) []) := by
  decide +kernel

theorem witness_WidthsOutsideTheContractAreRefused :
    64 < 65 ∧ refusalOf (exec (.manNum 0 65) State.reset) = some .manNumWidth ∧ 8 * ([0x12] : List Byte).length < 9 := by
  decide

theorem witness_ManchesterDecodesBack : 64 ≤ 64 ∧ State.reset.tl.len = 0 := by decide

theorem witness_PulseDistanceDecodesBack :
    128 ≤ 8 * (List.replicate 16 (0xFF : Byte)).length ∧ State.reset.tl.len = 0 := by decide

theorem witness_GreenTlowIsAParameter :
    let s : State := { State.reset with greenTlow := .srcAnd8, stim := [.word .bw 1] }
    exec .greenBytes s = .next (stateAfter (exec .greenBytes s)) ∧ step s = .next (stateAfter (step s)) := ⟨rfl, rfl⟩

/-- `OrangeCodeIsTheLayout`, `GreenBytesAreTheLayout`, `TemperatureReadsBack`: every named mode and fan of the two layouts,
and the ends of the temperature range. -/
theorem witness_layouts :
    ((⟨true, 0, 0, 15, false, false⟩ : Cfg).mode = 0 ∧ TempInRange ⟨true, 0, 0, 15, false, false⟩) ∧
    ((⟨true, 4, 3, 30, true, true⟩ : Cfg).mode = 4 ∧ (⟨true, 4, 3, 30, true, true⟩ : Cfg).fan = 3 ∧
      TempInRange ⟨true, 4, 3, 30, true, true⟩) ∧
    ¬ TempInRange ⟨true, 4, 3, 14, true, true⟩ ∧ ¬ TempInRange ⟨true, 4, 3, 31, true, true⟩ ∧
    (List.range 5).map (fun m => ({ zeroCfg with mode := BitVec.ofNat 3 m } : Cfg).mode) = [0, 1, 2, 3, 4] ∧
    (List.range 4).map (fun f => ({ zeroCfg with fan := BitVec.ofNat 2 f } : Cfg).fan) = [0, 1, 2, 3] := by decide

theorem witness_OrangeHeaderAndTail :
    Holds (on [2976, 992]).tl [2976, 992] ∧ Fits (addSpace 2976 (addMark 2976 [2976, 992])) ∧
    Fits (addMark 3968 [2976, 992]) := by decide

theorem witness_GreenHeaderAndTail :
    Holds (on []).tl [] ∧ Fits (addSpace 4500 (addMark 9000 [])) ∧ Holds (on [560, 1680]).tl [560, 1680] ∧
    Fits (addMark 560 [560, 1680]) := by decide

/-- `OrangePacketBuildsTheFrame`, `GreenPacketBuildsTheFrame`: an empty Timeline over old elements, with a code whose bits are all 1. -/
theorem witness_packets :
    ({ on [5, 7] with tl := { mem := (on [5, 7]).tl.mem, len := 0 }, codeO := BitVec.allOnes 34 } : State).tl.len = 0 := by
  decide

/-- `OrangeFrameShape`, `OrangeFrameCarriesTheCode`, `GreenFrameShape`, `GreenChecksumIsSentReversed`,
`CommandAcceptLatchesTheWord`, `EncOrangeBuildsItsFrame`, `EncGreenBuildsItsFrame`, `CommandsReadNothingLeftBehind`,
`SendTransmitsOrangeThenGreen`: an idle block (and another one), and for the two commands the latched one in `BUILD`. -/
theorem witness_commands :
    State.reset.phase = .idle ∧ (on [5, 7]).phase = .idle ∧ (on [5, 7]).draws = State.reset.draws ∧
    (on [5, 7]).greenTlow = State.reset.greenTlow ∧
    (let b := stateAfter (exec (.cmdAccept 0x08060) State.reset);
      b.phase = .build ∧ b.proto = .orange ∧ b.cfg = fixture) ∧
    (let b := stateAfter (exec (.cmdAccept 0x18060) State.reset);
      b.phase = .build ∧ b.proto = .green ∧ b.cfg = fixture) := by decide

/-- Draining, and building the other command. -/
theorem witness_BusyBlockTakesNoCommand :
    draining.phase = .drain ∧
    (let b := stateAfter (exec (.cmdAccept 0x18060) State.reset);
      b.phase = .build ∧ ¬ (b.proto = .orange ∧ b.cfg = fixture) ∧ ¬ (b.proto = .green ∧ b.cfg = zeroCfg)) := by decide

/-- The first element and the last. -/
theorem witness_DrainBeatTransfersOneElement :
    (draining.phase = .drain ∧ 0 < draining.tl.len ∧ Memory.read draining.tl.mem 0 = some 5) ∧
    (1 < ({ draining with rptr := 1 } : State).tl.len ∧ Memory.read draining.tl.mem 1 = some 7) ∧
    State.reset.phase ≠ .drain := by decide

theorem witness_OutputPortShowsTheFrame :
    (Inv afterOrange ∧ afterOrange.phase = .drain) ∧ (Inv State.reset ∧ State.reset.phase ≠ .drain) := by
  obtain ⟨h1, h2, -⟩ := afterOrange_inv
  exact ⟨⟨h1, h2⟩, ⟨by decide, by decide, fun h => absurd h (by decide)⟩, by decide⟩

/-- A stalled edge, an operation that forms `RBUF`, one that would empty the Timeline, and the last transfer. -/
theorem witness_FrameIsStableWhileDrained :
    (draining.phase = .drain ∧ fetch draining ≠ .run .reset ∧ step draining = .next draining) ∧
    (let s : State := { draining with gbuf := fixtureBuf, stim := [.op .greenReverse] };
      fetch s ≠ .run .reset ∧ step s = .next (stateAfter (step s))) ∧
    (let s : State := { draining with stim := [.op .tlClear] };
      fetch s ≠ .run .reset ∧ step s = .next (stateAfter (step s))) ∧
    (let s : State := { draining with rptr := 1, stim := [.pins ready] };
      fetch s ≠ .run .reset ∧ step s = .next (stateAfter (step s)) ∧ (stateAfter (step s)).phase = .idle) :=
  ⟨⟨by decide, by decide, rfl⟩, ⟨by decide, rfl⟩, ⟨by decide, rfl⟩, by decide, rfl, by decide⟩

/-- The four transitions; the second is the build step of the fixture. -/
theorem witness_PhaseTransitions :
    (let s : State := { State.reset with stim := [.pins { quietPins with cmdValid := true, cw := 0x08060 }] };
      AtPorts s ∧ (stateAfter (step s)).phase = .build) ∧
    (let s : State := stateAfter (exec (.cmdAccept 0x18060) State.reset);
      AtPorts s ∧ (stateAfter (step s)).phase = .drain) ∧
    (let s : State := { draining with rptr := 1, stim := [.pins ready] };
      AtPorts s ∧ (stateAfter (step s)).phase = .idle) ∧
    (let s : State := { draining with stim := [.pins { ready with rst := true }] };
      AtPorts s ∧ (stateAfter (step s)).phase = .idle) :=
  ⟨⟨.inr ⟨_, _, rfl⟩, by decide⟩, ⟨.inl rfl, by decide +kernel⟩, ⟨.inr ⟨_, _, rfl⟩, by decide⟩,
    .inr ⟨_, _, rfl⟩, by decide⟩

/-- A stall between the two transfers. -/
theorem witness_DrainDeliversTheFrame :
    let ps := [ready, quietPins]
    Holds draining.tl [5, 7] ∧ draining.phase = .drain ∧ draining.rptr = 0 ∧
    ({ draining with stim := [.pins ready, .pins quietPins, .pins ready] } : State).stim =
      (ps ++ [ready]).map .pins ++ [] ∧
    (∀ q ∈ ps ++ [ready], q.rst = false) ∧ ready.outReady = true ∧
    (ps ++ [ready]).countP (fun q => q.outReady) = [5, 7].length := by decide

theorem witness_EveryCommandRunsToTheEnd :
    State.reset.phase = .idle ∧ { quietPins with cmdValid := true, cw := 0x1FFFF }.rst = false ∧
    { quietPins with cmdValid := true, cw := 0x1FFFF }.cmdValid = true ∧ quietPins.rst = false ∧ ready.rst = false ∧
    ready.outReady = true := by decide

end Sys2Proof.Tests
end

section
/-! PROOFS. The low temperature field under either formula of `GREEN_TLOW`, and what every operation and every step
keeps: a well-formed Timeline store and the parameter `GREEN_TLOW`. -/

namespace Sys2Proof.Machine

open Sys2Proof.Safety

/-! ### The two formulas of `tlow` (R81) -/

/-- `T AND 8` keeps bit 3 alone, which the 3-bit field cuts off. -/
theorem tlow_srcAnd8 (t : BitVec 8) : tlow .srcAnd8 t = 0 :=
  calc BitVec.ofNat 3 (t.toNat &&& 8)
    _ = BitVec.ofNat 3 t.toNat &&& BitVec.ofNat 3 8 := BitVec.ofNat_and
    _ = 0 := BitVec.and_zero

theorem tlow_mod8_toNat (t : BitVec 8) : (tlow .mod8 t).toNat = t.toNat % 8 := by
  simp [tlow]

/-! ### The relation from a state to what an operation answers -/

/-- From `s` to `t` the store stays well formed and `GREEN_TLOW` stays as it is. -/
structure Keeps (s t : State) : Prop where
  store : StoreOk s.tl → StoreOk t.tl
  greenTlow : t.greenTlow = s.greenTlow

theorem Keeps.refl (s : State) : Keeps s s := ⟨fun h => h, rfl⟩

theorem Keeps.trans {s t u : State} (h : Keeps s t) (h' : Keeps t u) : Keeps s u :=
  ⟨fun hs => h'.store (h.store hs), h'.greenTlow.trans h.greenTlow⟩

/-- A write to neither field. -/
theorem Keeps.of_eq {s t : State} (htl : t.tl = s.tl) (hg : t.greenTlow = s.greenTlow) : Keeps s t :=
  ⟨fun h => htl ▸ h, hg⟩

theorem Keeps.of_next {s s' t : State} (h : (.next s' : Host.Outcome State Fault Refusal) = .next t)
    (hk : Keeps s s') : Keeps s t :=
  Host.Outcome.next.inj h ▸ hk

theorem Keeps.onTL {f : TL → Except Fault TL} (hf : KeepsStore f) {s t : State} (h : s.onTL f = .ok t) : Keeps s t := by
  obtain ⟨tl, e, rfl⟩ := State.onTL_eq_ok.1 h
  exact ⟨fun hs => hf _ _ hs e, rfl⟩

/-- An operation that is a Timeline operation on the state. -/
theorem Keeps.of_outcome {f : TL → Except Fault TL} (hf : KeepsStore f) {s t : State}
    (h : outcome (s.onTL f) = .next t) : Keeps s t :=
  .onTL hf (outcome_eq_next.1 h)

/-- A packet (R145, R167): a Timeline operation, after which the working registers are left anew. -/
theorem Keeps.of_packet {f : TL → Except Fault TL} (hf : KeepsStore f) {p : Proto} {s t : State}
    (h : outcome ((s.onTL f).map (State.leaveLoops p)) = .next t) : Keeps s t := by
  obtain ⟨u, e, rfl⟩ := map_eq_ok.1 (outcome_eq_next.1 h)
  exact (Keeps.onTL hf e).trans (.of_eq rfl rfl)

theorem Keeps.clear (s : State) : Keeps s (s.withTL s.tl.clear) := ⟨StoreOk_clear, rfl⟩

/-! ### The operations at the block's boundary -/

theorem State.build_keeps {p : Proto} {s t : State} (h : s.build p = .ok t) : Keeps s t := by
  cases p with
  | orange =>
    obtain ⟨tl, e, -, hs, -⟩ := s.buildOrange_eq
    cases e.symm.trans h
    exact ⟨hs, rfl⟩
  | green =>
    obtain ⟨tl, e, -, hs, -⟩ := s.buildGreen_eq
    cases e.symm.trans h
    exact ⟨hs, rfl⟩

theorem State.command_keeps {p : Proto} {c : Cfg} {s t : State} (h : s.command p c = .ok t) : Keeps s t := by
  obtain ⟨-, hb⟩ | ⟨-, -, -, hb⟩ | ⟨-, rfl⟩ := State.command_eq_ok h
  · exact (Keeps.of_eq rfl rfl : Keeps s (s.accept p c)).trans (State.build_keeps hb)
  · exact State.build_keeps hb
  · exact .refl _

theorem State.beat_keeps {s t : State} (h : s.beat = .ok t) : Keeps s t := by
  obtain ⟨-, rfl⟩ | ⟨-, -, d, -, rfl⟩ := State.beat_eq_ok.1 h
  · exact .refl _
  · exact .of_eq rfl rfl

theorem State.beats_keeps {n : Nat} {s t : State} (h : State.beats n s = .ok t) : Keeps s t := by
  induction n generalizing s with
  | zero =>
    cases h
    exact .refl _
  | succ n ih =>
    obtain ⟨u, hbeat, hrest⟩ := bind_eq_ok.1 h
    exact (State.beat_keeps hbeat).trans (ih hrest)

theorem State.transmit_keeps {p : Proto} {c : Cfg} {s t : State} (h : s.transmit p c = .ok t) : Keeps s t := by
  obtain ⟨u, hcmd, hbeats⟩ := bind_eq_ok.1 h
  exact (State.command_keeps hcmd).trans (State.beats_keeps hbeats)

theorem State.sendBoth_keeps {c : Cfg} {s t : State} (h : s.sendBoth c = .ok t) : Keeps s t := by
  unfold State.sendBoth at h
  split at h
  case h_1 =>
    obtain ⟨u, horange, hgreen⟩ := bind_eq_ok.1 h
    have hwait : Keeps u (u.hostWait Config.gapUs) := .of_eq rfl rfl
    exact ((State.transmit_keeps horange).trans hwait).trans (State.transmit_keeps hgreen)
  case h_2 | h_3 =>
    cases h
    exact .refl _

theorem execCmdAccept_keeps {cw : CmdWord} {s t : State} (h : execCmdAccept cw s = .next t) : Keeps s t := by
  unfold execCmdAccept at h
  split at h
  case h_1 => exact .of_next h (.of_eq rfl rfl)
  case h_2 | h_3 => exact .of_next h (.refl s)

/-! ### The operations that can be refused, and the one that reads -/

theorem execManNum_keeps {v w : Nat} {s t : State} (h : execManNum v w s = .next t) : Keeps s t := by
  unfold execManNum at h
  split at h
  · cases h
  · exact .of_outcome (KeepsStore.manBits _ _) h

theorem execPdBuf_keeps {bytes : List Byte} {w : Nat} {s t : State} (h : execPdBuf bytes w s = .next t) :
    Keeps s t := by
  unfold execPdBuf at h
  split at h
  · cases h
  · exact .of_outcome (KeepsStore.pdBits _ _) h

theorem execTlRead_keeps {s t : State} (h : execTlRead s = .next t) : Keeps s t := by
  unfold execTlRead at h
  split at h
  · exact .of_next h (.of_eq rfl rfl)
  · cases h

/-! ### Every operation and every step -/

theorem exec_keeps {i : Instr} {s t : State} (h : exec i s = .next t) : Keeps s t := by
  cases i with
  | encOrange c => exact State.command_keeps (outcome_eq_next.1 h)
  | encGreen c => exact State.command_keeps (outcome_eq_next.1 h)
  | tlMark d => exact .of_outcome (KeepsStore.mark d) h
  | tlSpace d => exact .of_outcome (KeepsStore.space d) h
  | man0 => exact .of_outcome (KeepsStore.manBit _ false) h
  | man1 => exact .of_outcome (KeepsStore.manBit _ true) h
  | pd0 => exact .of_outcome (KeepsStore.pdBit _ false) h
  | pd1 => exact .of_outcome (KeepsStore.pdBit _ true) h
  | tlClear => exact .of_next h (.clear s)
  | tlLoad l => exact .of_outcome (KeepsStore.load l) h
  | tlAppend l => exact .of_outcome (KeepsStore.append l) h
  | tlRead => exact execTlRead_keeps h
  | manBit b => exact .of_outcome (KeepsStore.manBit _ b) h
  | manNum v w => exact execManNum_keeps h
  | pdBit b => exact .of_outcome (KeepsStore.pdBit _ b) h
  | pdBuf bytes w => exact execPdBuf_keeps h
  | orangeCode => exact .of_next h (.of_eq rfl rfl)
  | oPktHeader => exact .of_outcome KeepsStore.id h
  | oCodeHeader => exact .of_outcome ((KeepsStore.mark _).bind (KeepsStore.space _)) h
  | oCodeTail => exact .of_outcome KeepsStore.id h
  | oPktTail => exact .of_outcome (KeepsStore.mark _) h
  | orangePacket => exact .of_packet (KeepsStore.orangePacket s.codeO) h
  | greenBytes => exact .of_next h (.of_eq rfl rfl)
  | greenCsum => exact .of_next h (.of_eq rfl rfl)
  | bitrev8 b => exact .of_next h (.of_eq rfl rfl)
  | greenReverse => exact .of_next h (.of_eq rfl rfl)
  | gPktHeader => exact .of_outcome ((KeepsStore.mark _).bind (KeepsStore.space _)) h
  | gCodeHeader => exact .of_outcome KeepsStore.id h
  | gCodeTail => exact .of_outcome KeepsStore.id h
  | gPktTail => exact .of_outcome (KeepsStore.mark _) h
  | greenPacket => exact .of_packet (KeepsStore.greenPacket s.rbuf) h
  | cmdAccept cw => exact execCmdAccept_keeps h
  | drainBeat => exact State.beat_keeps (outcome_eq_next.1 h)
  | send c => exact State.sendBoth_keeps (outcome_eq_next.1 h)
  | reset => exact .of_next h ⟨StoreOk_clear, rfl⟩

theorem step_keeps {s t : State} (h : step s = .next t) : Keeps s t := by
  have hpop : Keeps s s.popStim := .of_eq rfl rfl
  obtain ⟨-, rfl⟩ | ⟨i, -, hi⟩ := step_eq_next.1 h
  · exact hpop
  · exact hpop.trans (exec_keeps hi)

/-! ### The obligations -/

/-- Settles O37, one lemma for each formula. -/
theorem greenTlowOfBothFormulas : Obligations.GreenTlowOfBothFormulas :=
  fun t => ⟨tlow_srcAnd8 t, tlow_mod8_toNat t⟩

/-- Settles O10, by the case analysis of `exec_keeps` over the operations. -/
theorem operationsKeepStoreWellFormed : Obligations.OperationsKeepStoreWellFormed :=
  fun _ _ _ hs h => (exec_keeps h).store hs

/-- Settles O38: a step runs an operation on the state with its stimulus taken, or waits. -/
theorem greenTlowIsAParameter : Obligations.GreenTlowIsAParameter := by
  rintro s t (⟨i, h⟩ | h)
  · exact (exec_keeps h).greenTlow
  · exact (step_keeps h).greenTlow

end Sys2Proof.Machine
end

section
/-! PROOFS. The state along a run: reset, the phases of R32, what a step in `DRAIN` can do, the invariant, and that a
command reads nothing an earlier one left. -/

namespace Sys2Proof.Machine

open Sys2Proof.Safety

/-! ### The current polarity after a push (R29, R30) -/

theorem TL.polarity_of_odd {tl : TL} (h : tl.len % 2 = 1) : tl.polarity = some .mark := by
  have h0 : tl.len ≠ 0 := by omega
  have hlast : (tl.len - 1) % 2 = 0 := by omega
  simp [TL.polarity, elementPolarity, h0, hlast]

theorem TL.polarity_of_even {tl : TL} (h0 : tl.len ≠ 0) (h : tl.len % 2 = 0) : tl.polarity = some .space := by
  have hlast : (tl.len - 1) % 2 ≠ 0 := by omega
  simp [TL.polarity, elementPolarity, h0, hlast]

theorem TL.push_len {d : Nat} {tl tl' : TL} (h : TL.push d tl = .ok tl') : tl'.len = tl.len + 1 := by
  obtain ⟨-, -, rfl⟩ := TL.push_eq_ok.1 h
  rfl

theorem TL.extend_len {d : Nat} {tl tl' : TL} (h : TL.extend d tl = .ok tl') : tl'.len = tl.len := by
  obtain ⟨v, -, -, rfl⟩ := TL.extend_eq_ok.1 h
  rfl

/-- After `TL_MARK` the last element stands at an even index. -/
theorem TL.mark_len_odd {d : Nat} {tl tl' : TL} (h : TL.mark d tl = .ok tl') : tl'.len % 2 = 1 := by
  unfold TL.mark at h
  split at h
  case isTrue hempty => have := TL.push_len h; omega
  case isFalse =>
    split at h
    case isTrue hmark => have := TL.extend_len h; omega
    case isFalse hspace => have := TL.push_len h; omega

/-- After `TL_SPACE` the last element stands at an odd index. -/
theorem TL.space_len_even {d : Nat} {tl tl' : TL} (h : TL.space d tl = .ok tl') : tl'.len ≠ 0 ∧ tl'.len % 2 = 0 := by
  unfold TL.space at h
  split at h
  case isTrue hempty =>
    obtain ⟨u, hzero, hpush⟩ := bind_eq_ok.1 h
    have := TL.push_len hzero
    have := TL.push_len hpush
    omega
  case isFalse hne =>
    split at h
    case isTrue hspace => have := TL.extend_len h; omega
    case isFalse hmark => have := TL.push_len h; omega

/-! ### The operations that can be refused, and the one that reads, where they answer -/

/-- Where `MAN_NUM` answers, its width was in the contract (R123). -/
theorem execManNum_eq_next {v w : Nat} {s t : State} (h : execManNum v w s = .next t) :
    outcome (s.onTL (TL.manNum Config.unitO v w)) = .next t := by
  unfold execManNum at h
  split at h
  · cases h
  · exact h

/-- Where `PD_BUF` answers, its width was in the contract (R127). -/
theorem execPdBuf_eq_next {bytes : List Byte} {w : Nat} {s t : State} (h : execPdBuf bytes w s = .next t) :
    outcome (s.onTL (TL.pdBuf Config.unitG bytes w)) = .next t := by
  unfold execPdBuf at h
  split at h
  · cases h
  · exact h

/-- Where `TL_READ` answers, it only gives a value (R105, log 8). -/
theorem execTlRead_eq_next {s t : State} (h : execTlRead s = .next t) : ∃ r, t = { s with ret := r } := by
  unfold execTlRead at h
  split at h
  · exact ⟨_, (Host.Outcome.next.inj h).symm⟩
  · cases h

/-! ### The frame of the latched protocol -/

theorem Fits_frameOf (s : State) : Fits (frameOf s) := by
  unfold frameOf
  split
  · exact Fits_orangeFrame _
  · exact Fits_greenFrame _

theorem frameOf_pos (s : State) : 0 < (frameOf s).length := by
  unfold frameOf
  split
  · exact orangeFrame_pos _
  · rw [greenFrame_length]; decide

theorem frameBeats_length (l : List Nat) (f : BitVec 8) : (frameBeats l f).length = l.length := by
  simp [frameBeats]

/-- The transfers up to and with element `k` (R183). -/
theorem frameBeats_take_succ {l : List Nat} {f : BitVec 8} {k : Nat} (hk : k < l.length) :
    (frameBeats l f).take (k + 1) =
      (frameBeats l f).take k ++ [.beat l[k] (decide (k + 1 = l.length)) l.length f] := by
  rw [List.take_succ_eq_append_getElem (by rwa [frameBeats_length])]
  simp [frameBeats]

/-! ### What a step in `DRAIN` can do (R34, R38, R183) -/

/-- The two things a step in `DRAIN` other than reset can do to the block: hold the frame, where at most the value `RBUF`
(R27) and the model's result (log 8) are formed anew, or transfer element `RPTR`. -/
inductive DrainStep (s : State) : State → Prop where
  | hold (b : GBuf) (r : Ret) (hb : b = s.rbuf ∨ b = s.gbuf.map bitRev8) : DrainStep s { s with rbuf := b, ret := r }
  | transfer (d : Nat) (hlt : s.rptr < s.tl.len) (hd : Memory.read s.tl.mem s.rptr = some d) : DrainStep s { s with
      sink  := s.sink ++ [.beat d (decide (s.rptr + 1 = s.tl.len)) s.tl.len s.freq]
      rptr  := s.rptr + 1
      phase := if s.rptr + 1 = s.tl.len then .idle else .drain }

theorem DrainStep.refl (s : State) : DrainStep s s := .hold s.rbuf s.ret (.inl rfl)

theorem DrainStep.of_next {s s' t : State} (h : (.next s' : Host.Outcome State Fault Refusal) = .next t)
    (hd : DrainStep s s') : DrainStep s t :=
  Host.Outcome.next.inj h ▸ hd

theorem State.command_drain {s : State} (hp : s.phase = .drain) (p : Proto) (c : Cfg) : s.command p c = .ok s := by
  simp [State.command, hp]

theorem State.sendBoth_drain {s : State} (hp : s.phase = .drain) (c : Cfg) : s.sendBoth c = .ok s := by
  simp [State.sendBoth, hp]

theorem execCmdAccept_drain {s : State} (hp : s.phase = .drain) (cw : CmdWord) : execCmdAccept cw s = .next s := by
  simp [execCmdAccept, hp]

theorem DrainStep.of_beat {s t : State} (hp : s.phase = .drain) (h : s.beat = .ok t) : DrainStep s t := by
  obtain ⟨hne, -⟩ | ⟨-, hlt, d, hd, rfl⟩ := State.beat_eq_ok.1 h
  · exact absurd hp hne
  · exact .transfer d hlt hd

/-- Of the operations that run in `DRAIN`, a transfer moves `RPTR`, reset leaves the phase, and the others hold the
frame. -/
theorem exec_drain {i : Instr} {s t : State} (hp : s.phase = .drain) (hi : runsInDrain i = true) (hne : i ≠ .reset)
    (h : exec i s = .next t) : DrainStep s t := by
  cases i with
  | encOrange c | encGreen c =>
    cases (State.command_drain hp _ c).symm.trans (outcome_eq_next.1 h)
    exact .refl s
  | send c =>
    cases (State.sendBoth_drain hp c).symm.trans (outcome_eq_next.1 h)
    exact .refl s
  | cmdAccept cw => exact .of_next ((execCmdAccept_drain hp cw).symm.trans h) (.refl s)
  | drainBeat => exact .of_beat hp (outcome_eq_next.1 h)
  | reset => exact absurd rfl hne
  | tlRead =>
    obtain ⟨r, rfl⟩ := execTlRead_eq_next h
    exact .hold s.rbuf r (.inl rfl)
  | bitrev8 b => exact .of_next h (.hold s.rbuf _ (.inl rfl))
  | greenReverse => exact .of_next h (.hold _ s.ret (.inr rfl))
  | oPktHeader | oCodeTail | gCodeHeader | gCodeTail => exact .of_next h (.refl s)
  | tlMark | tlSpace | man0 | man1 | pd0 | pd1 | tlClear | tlLoad | tlAppend | manBit | manNum | pdBit | pdBuf
  | orangeCode | oCodeHeader | oPktTail | orangePacket | greenBytes | greenCsum | gPktHeader | gPktTail
  | greenPacket => cases hi

theorem edgeFetch_runsInDrain {p : Pins} {s : State} {i : Instr} (hp : s.phase = .drain)
    (h : edgeFetch p s = .run i) : runsInDrain i = true := by
  obtain hr | ⟨-, hb | hw⟩ | ⟨hbuild, -⟩ | ⟨hidle, -⟩ := edgeFetch_cases p s
  · cases hr.symm.trans h; rfl
  · cases hb.symm.trans h; rfl
  · cases hw.symm.trans h
  · cases hp.symm.trans hbuild
  · cases hp.symm.trans hidle

theorem benchFetch_runsInDrain {i j : Instr} {s : State} (hp : s.phase = .drain) (h : benchFetch j s = .run i) :
    runsInDrain i = true := by
  obtain ⟨hrun, hne | hr⟩ | ⟨hw, -⟩ := benchFetch_cases j s
  · exact absurd hp hne
  · cases hrun.symm.trans h; exact hr
  · cases hw.symm.trans h

/-- Whatever is presented, what a step runs in `DRAIN` is an operation that keeps the frame (log 1). -/
theorem fetch_runsInDrain {s : State} {i : Instr} (hp : s.phase = .drain) (h : fetch s = .run i) :
    runsInDrain i = true := by
  unfold fetch at h
  split at h
  case h_1 | h_2 => exact edgeFetch_runsInDrain hp h
  case h_3 =>
    split at h
    · exact benchFetch_runsInDrain hp h
    · cases h
  case h_4 => exact benchFetch_runsInDrain hp h

/-- Everything a step in `DRAIN` can do. -/
theorem step_drain {s t : State} (hp : s.phase = .drain) (h : step s = .next t) :
    (fetch s = .run .reset ∧ t = s.popStim.resetPin) ∨ DrainStep s.popStim t := by
  obtain ⟨-, rfl⟩ | ⟨i, hf, he⟩ := step_eq_next.1 h
  · exact .inr (.refl _)
  · by_cases hi : i = .reset
    · subst hi
      exact .inl ⟨hf, (Host.Outcome.next.inj he).symm⟩
    · exact .inr (exec_drain (s := s.popStim) hp (fetch_runsInDrain hp hf) hi he)

/-! ### The part of the invariant beside the store -/

/-- `RPTR` is in its range and a frame that is being drained is whole: `Inv` is this and `StoreOk`. -/
def PlayOk (s : State) : Prop := s.rptr ≤ 256 ∧ (s.phase = .drain → Draining s)

theorem inv_iff {s : State} : Inv s ↔ StoreOk s.tl ∧ PlayOk s := Iff.rfl

/-- Outside `DRAIN` only the range of `RPTR` matters. -/
theorem PlayOk.of_ne {s : State} (hp : s.phase ≠ .drain) (hr : s.rptr ≤ 256) : PlayOk s :=
  ⟨hr, fun h => absurd h hp⟩

/-- Holding the frame changes nothing the invariant speaks of; a transfer moves one element from the frame to the sink. -/
theorem DrainStep.playOk {s t : State} (hs : Draining s) (h : DrainStep s t) : PlayOk t := by
  obtain ⟨hh, hfreq, hlt, before, hsink⟩ := hs
  have hfits := (Fits_frameOf s).1
  have hlen := hh.1
  cases h with
  | hold b r hb => exact ⟨by simp only; omega, fun _ => ⟨hh, hfreq, hlt, before, hsink⟩⟩
  | transfer d _ hd =>
    have hlt' : s.rptr < (frameOf s).length := hlen ▸ hlt
    have hd' : (frameOf s)[s.rptr] = d := by
      rw [hh.2 _ hlt', List.getElem?_eq_getElem hlt'] at hd
      exact Option.some.inj hd
    refine ⟨by simp only; omega, fun hphase => ⟨hh, hfreq, ?_, before, ?_⟩⟩
    · have hmore : s.rptr + 1 ≠ s.tl.len := fun he => by simp [he] at hphase
      simp only; omega
    · calc s.sink ++ [.beat d (decide (s.rptr + 1 = s.tl.len)) s.tl.len s.freq]
        _ = before ++ ((frameBeats (frameOf s) s.freq).take s.rptr ++
              [.beat (frameOf s)[s.rptr] (decide (s.rptr + 1 = (frameOf s).length)) (frameOf s).length s.freq]) := by
            rw [hsink, hd', hlen, List.append_assoc]
        _ = before ++ (frameBeats (frameOf s) s.freq).take (s.rptr + 1) := by rw [frameBeats_take_succ hlt']

/-! ### Outside `DRAIN`: builds and the host sequence -/

theorem frameOf_orange {s : State} (h : s.proto = .orange) : frameOf s = orangeFrame s.codeO := by
  simp [frameOf, h]

theorem frameOf_green {s : State} (h : s.proto = .green) : frameOf s = greenFrame s.gbuf := by
  simp [frameOf, h]

/-- At the start of `DRAIN` nothing has been transferred yet. -/
theorem draining_of_start {s : State} {l : List Nat} (hl : frameOf s = l) (hh : Holds s.tl l)
    (hf : s.freq = (Config.row s.proto).freq) (hr : s.rptr = 0) : Draining s := by
  subst hl
  exact ⟨hh, hf, by rw [hr, hh.1]; exact frameOf_pos s, s.sink, by simp [hr]⟩

/-- A build of the latched protocol leaves its whole frame to be drained (R181, R182). -/
theorem State.build_draining {p : Proto} {s t : State} (hproto : s.proto = p) (h : s.build p = .ok t) :
    t.phase = .drain ∧ t.rptr = 0 ∧ Draining t := by
  have hfreq : (Config.row p).freq = (Config.row s.proto).freq := by rw [hproto]
  cases p with
  | orange =>
    obtain ⟨tl, e, hh, -⟩ := s.buildOrange_eq
    cases e.symm.trans h
    exact ⟨rfl, rfl, draining_of_start (frameOf_orange hproto) hh hfreq rfl⟩
  | green =>
    obtain ⟨tl, e, hh, -⟩ := s.buildGreen_eq
    cases e.symm.trans h
    exact ⟨rfl, rfl, draining_of_start (frameOf_green hproto) hh hfreq rfl⟩

theorem State.build_playOk {p : Proto} {s t : State} (hproto : s.proto = p) (h : s.build p = .ok t) : PlayOk t := by
  obtain ⟨-, hr, hd⟩ := State.build_draining hproto h
  exact ⟨by omega, fun _ => hd⟩

theorem State.command_idle {s : State} (hp : s.phase = .idle) (p : Proto) (c : Cfg) :
    s.command p c = (s.accept p c).build p := by
  simp [State.command, hp]

theorem State.command_playOk {p : Proto} {c : Cfg} {s t : State} (hs : PlayOk s) (h : s.command p c = .ok t) :
    PlayOk t := by
  obtain ⟨-, hb⟩ | ⟨-, hproto, -, hb⟩ | ⟨-, rfl⟩ := State.command_eq_ok h
  · exact State.build_playOk (s := s.accept p c) rfl hb
  · exact State.build_playOk hproto hb
  · exact hs

/-- The host's blocking call ends in `IDLE`, after as many transfers as the frame has elements (R185). -/
theorem State.transmit_idle {p : Proto} {c : Cfg} {s t : State} (hp : s.phase = .idle)
    (h : s.transmit p c = .ok t) : t.phase = .idle ∧ t.rptr ≤ 256 := by
  obtain ⟨u, hcmd, hbeats⟩ := bind_eq_ok.1 h
  rw [State.command_idle hp] at hcmd
  obtain ⟨hphase, hr, hh, -⟩ := State.build_draining (s := s.accept p c) rfl hcmd
  obtain ⟨n, hn⟩ := Nat.exists_eq_add_one.2 (frameOf_pos u)
  rw [hh.1, hn, State.beats_holds hh hphase (by omega)] at hbeats
  cases hbeats
  exact ⟨rfl, (Fits_frameOf u).1⟩

theorem State.sendBoth_playOk {c : Cfg} {s t : State} (hs : PlayOk s) (h : s.sendBoth c = .ok t) : PlayOk t := by
  unfold State.sendBoth at h
  split at h
  case h_1 hidle =>
    obtain ⟨u, horange, hgreen⟩ := bind_eq_ok.1 h
    obtain ⟨hu, -⟩ := State.transmit_idle hidle horange
    obtain ⟨ht, hr⟩ := State.transmit_idle (s := u.hostWait Config.gapUs) hu hgreen
    exact .of_ne (by simp [ht]) hr
  case h_2 | h_3 =>
    cases h
    exact hs

/-! ### Outside `DRAIN`: the operations of the units -/

/-- An operation that leaves the sequencer where it is, outside `DRAIN`. -/
theorem PlayOk.of_next {s s' t : State} (hp : s.phase ≠ .drain) (hs : PlayOk s)
    (h : (.next s' : Host.Outcome State Fault Refusal) = .next t) (hphase : s'.phase = s.phase)
    (hrptr : s'.rptr = s.rptr) : PlayOk t := by
  cases h
  exact .of_ne (by rwa [hphase]) (by rw [hrptr]; exact hs.1)

theorem PlayOk.of_outcome {f : TL → Except Fault TL} {s t : State} (hp : s.phase ≠ .drain) (hs : PlayOk s)
    (h : outcome (s.onTL f) = .next t) : PlayOk t := by
  obtain ⟨tl, -, rfl⟩ := State.onTL_eq_ok.1 (outcome_eq_next.1 h)
  exact .of_ne hp hs.1

theorem PlayOk.of_packet {f : TL → Except Fault TL} {p : Proto} {s t : State} (hp : s.phase ≠ .drain) (hs : PlayOk s)
    (h : outcome ((s.onTL f).map (State.leaveLoops p)) = .next t) : PlayOk t := by
  obtain ⟨u, hu, rfl⟩ := map_eq_ok.1 (outcome_eq_next.1 h)
  obtain ⟨tl, -, rfl⟩ := State.onTL_eq_ok.1 hu
  exact .of_ne hp hs.1

theorem execCmdAccept_playOk {cw : CmdWord} {s t : State} (hs : PlayOk s) (h : execCmdAccept cw s = .next t) :
    PlayOk t := by
  unfold execCmdAccept at h
  split at h
  all_goals cases h
  case h_1 => exact .of_ne (by simp [State.accept]) hs.1
  case h_2 | h_3 => exact hs

theorem State.beat_outside {s t : State} (hp : s.phase ≠ .drain) (h : s.beat = .ok t) : t = s := by
  obtain ⟨-, rfl⟩ | ⟨hd, -⟩ := State.beat_eq_ok.1 h
  · rfl
  · exact absurd hd hp

/-- Outside `DRAIN` a command and `SEND` build whole frames, and no other operation enters `DRAIN` or moves `RPTR` past
its range. -/
theorem exec_playOk {i : Instr} {s t : State} (hp : s.phase ≠ .drain) (hs : PlayOk s) (h : exec i s = .next t) :
    PlayOk t := by
  cases i with
  | encOrange c | encGreen c => exact State.command_playOk hs (outcome_eq_next.1 h)
  | send c => exact State.sendBoth_playOk hs (outcome_eq_next.1 h)
  | cmdAccept cw => exact execCmdAccept_playOk hs h
  | drainBeat => exact State.beat_outside hp (outcome_eq_next.1 h) ▸ hs
  | reset => cases h; exact .of_ne (by simp) (by simp)
  | tlMark | tlSpace | man0 | man1 | pd0 | pd1 | tlLoad | tlAppend | manBit | pdBit | oCodeHeader | oPktTail
  | gPktHeader | gPktTail => exact .of_outcome hp hs h
  | orangePacket | greenPacket => exact .of_packet hp hs h
  | manNum v w => exact .of_outcome hp hs (execManNum_eq_next h)
  | pdBuf bytes w => exact .of_outcome hp hs (execPdBuf_eq_next h)
  | tlRead =>
    obtain ⟨r, rfl⟩ := execTlRead_eq_next h
    exact .of_ne hp hs.1
  | tlClear | orangeCode | greenBytes | greenCsum | bitrev8 | greenReverse | oPktHeader | oCodeTail | gCodeHeader
  | gCodeTail => exact .of_next hp hs h rfl rfl

/-- Every step keeps `RPTR` in range and a drained frame whole. -/
theorem step_playOk {s t : State} (hs : PlayOk s) (h : step s = .next t) : PlayOk t := by
  by_cases hp : s.phase = .drain
  · obtain ⟨-, rfl⟩ | hd := step_drain hp h
    · exact .of_ne (by simp) (by simp)
    · exact DrainStep.playOk (s := s.popStim) (hs.2 hp) hd
  · have hpop : PlayOk s.popStim := .of_ne hp hs.1
    obtain ⟨-, rfl⟩ | ⟨i, -, he⟩ := step_eq_next.1 h
    · exact hpop
    · exact exec_playOk (s := s.popStim) hp hpop he

/-! ### The operations at the ports -/

theorem exec_commandOf (p : Proto) (c : Cfg) (s : State) : exec (commandOf p c) s = outcome (s.command p c) := by
  cases p <;> rfl

/-- In `BUILD` the latched command enters `DRAIN` (R32, R181, R182). -/
theorem exec_latchedCommand_phase {s t : State} (hp : s.phase = .build)
    (h : exec (commandOf s.proto s.cfg) s = .next t) : t.phase = .drain := by
  rw [exec_commandOf, State.command_latched s hp] at h
  obtain ⟨hphase, -⟩ := State.build_draining rfl (outcome_eq_next.1 h)
  exact hphase

theorem execCmdAccept_idle {s : State} (hp : s.phase = .idle) (cw : CmdWord) :
    execCmdAccept cw s = .next (s.accept (cwProto cw) (cwCfg cw)) := by
  simp [execCmdAccept, hp]

/-- A transfer leaves `DRAIN` at the last element only, and then for `IDLE` (R32, R185). -/
theorem State.beat_leaves_drain {s t : State} (hp : s.phase = .drain) (h : s.beat = .ok t) (hne : t.phase ≠ .drain) :
    t.phase = .idle ∧ s.rptr + 1 = s.tl.len := by
  obtain ⟨hout, -⟩ | ⟨-, -, d, -, rfl⟩ := State.beat_eq_ok.1 h
  · exact absurd hp hout
  · by_cases hlast : s.rptr + 1 = s.tl.len
    · exact ⟨if_pos hlast, hlast⟩
    · exact absurd (if_neg hlast) hne

/-! ### What a command leaves of the state before (R36) -/

/-- `GREEN_BYTES` and `GREEN_CSUM` write all thirteen bytes: nothing of the old buffer is left (R160, R161). -/
theorem greenFill_summed (k : Config.GreenTlow) (c : Cfg) (m3 : BitVec 3) (b1 : Byte) (old old' : GBuf) :
    { greenFill k c m3 b1 old with b12 := checksum (greenFill k c m3 b1 old) } =
      { greenFill k c m3 b1 old' with b12 := checksum (greenFill k c m3 b1 old') } := rfl

/-- From `IDLE`, `CODE_O` and the frame of `ENC_ORANGE` come from the configuration and the draw alone (R181). -/
theorem exec_encOrange_idle {s : State} (hp : s.phase = .idle) (c : Cfg) :
    ∃ t, exec (.encOrange c) s = .next t ∧ Holds t.tl (orangeFrame t.codeO) ∧
      t.codeO = orangeWord c (Config.any3 s.draws) ∧ t.freq = 33 ∧ t.rptr = 0 := by
  obtain ⟨tl, e, hh, -⟩ := (s.accept .orange c).buildOrange_eq
  exact ⟨_, outcome_eq_next.2 ((State.command_idle hp .orange c).trans e), hh, rfl, rfl, rfl⟩

/-- From `IDLE`, `GBUF` and the frame of `ENC_GREEN` come from the configuration and the draws alone (R182): `old` is any
buffer, for the command leaves no byte of it. -/
theorem exec_encGreen_idle {s : State} (hp : s.phase = .idle) (c : Cfg) (old : GBuf) :
    ∃ t, exec (.encGreen c) s = .next t ∧ Holds t.tl (greenFrame t.gbuf) ∧
      t.gbuf = (let g := greenFill s.greenTlow c (Config.any3 s.draws) (Config.any8 s.draws) old
        { g with b12 := checksum g }) ∧
      t.rbuf = t.gbuf.map bitRev8 ∧ t.freq = 38 ∧ t.rptr = 0 := by
  obtain ⟨tl, e, hh, -⟩ := (s.accept .green c).buildGreen_eq
  exact ⟨_, outcome_eq_next.2 ((State.command_idle hp .green c).trans e), hh,
    greenFill_summed _ _ _ _ s.gbuf old, rfl, rfl, rfl⟩

/-! ### The obligations -/

/-- Settles O9: the store by `step_keeps`, the rest by `step_playOk`, which splits at the phase. -/
theorem stepKeepsInvariant : Obligations.StepKeepsInvariant := by
  intro s t hs h
  obtain ⟨hstore, hplay⟩ := inv_iff.1 hs
  exact inv_iff.2 ⟨(step_keeps h).store hstore, step_playOk hplay h⟩

/-- Settles O21: the parity of the length after each push. -/
theorem pushSetsCurrentPolarity : Obligations.PushSetsCurrentPolarity := by
  intro s t d
  constructor
  · intro h
    obtain ⟨tl, hmark, rfl⟩ := State.onTL_eq_ok.1 (outcome_eq_next.1 h)
    exact TL.polarity_of_odd (TL.mark_len_odd hmark)
  · intro h
    obtain ⟨tl, hspace, rfl⟩ := State.onTL_eq_ok.1 (outcome_eq_next.1 h)
    obtain ⟨hne, heven⟩ := TL.space_len_even hspace
    exact TL.polarity_of_even hne heven

/-- Settles O50: what each command leaves is a function of the configuration, `GREEN_TLOW` and the draws. -/
theorem commandsReadNothingLeftBehind : Obligations.CommandsReadNothingLeftBehind := by
  intro s₁ s₂ c hp₁ hp₂ hdraws htlow
  constructor
  · obtain ⟨t₁, e₁, hh₁, hcode₁, hfreq₁, hrptr₁⟩ := exec_encOrange_idle hp₁ c
    obtain ⟨t₂, e₂, hh₂, hcode₂, hfreq₂, hrptr₂⟩ := exec_encOrange_idle hp₂ c
    have hcode : t₁.codeO = t₂.codeO := by rw [hcode₁, hcode₂, hdraws]
    exact ⟨t₁, t₂, _, e₁, e₂, hh₁, hcode ▸ hh₂, hcode, hfreq₁.trans hfreq₂.symm, hrptr₁.trans hrptr₂.symm⟩
  · obtain ⟨t₁, e₁, hh₁, hgbuf₁, hrbuf₁, hfreq₁, hrptr₁⟩ := exec_encGreen_idle hp₁ c s₁.gbuf
    obtain ⟨t₂, e₂, hh₂, hgbuf₂, hrbuf₂, hfreq₂, hrptr₂⟩ := exec_encGreen_idle hp₂ c s₁.gbuf
    have hgbuf : t₁.gbuf = t₂.gbuf := by rw [hgbuf₁, hgbuf₂, hdraws, htlow]
    have hrbuf : t₁.rbuf = t₂.rbuf := by rw [hrbuf₁, hrbuf₂, hgbuf]
    exact ⟨t₁, t₂, _, e₁, e₂, hh₁, hgbuf ▸ hh₂, hgbuf, hrbuf, hfreq₁.trans hfreq₂.symm, hrptr₁.trans hrptr₂.symm⟩

/-- Settles O53, by the two things `step_drain` leaves for a step that is no reset. -/
theorem frameIsStableWhileDrained : Obligations.FrameIsStableWhileDrained := by
  intro s t hp hreset h
  obtain ⟨hr, -⟩ | hd := step_drain hp h
  · exact absurd hr hreset
  · cases hd with
    | hold b r hb => exact ⟨rfl, hb, .inl ⟨rfl, hp, rfl⟩⟩
    | transfer d hlt hd => exact ⟨rfl, .inl rfl, .inr ⟨rfl, hlt, rfl⟩⟩

/-- Settles O54, by what a clock edge fetches in each phase. -/
theorem phaseTransitions : Obligations.PhaseTransitions := by
  intro s t hports h hne
  obtain ⟨p, hf⟩ := fetch_atPorts hports
  obtain ⟨-, rfl⟩ | ⟨i, hi, he⟩ := step_eq_next.1 h
  · exact absurd rfl hne
  · have hedge : edgeFetch p s = .run i := hf.symm.trans hi
    obtain hr | ⟨hp, hb | hw⟩ | ⟨hp, hl⟩ | ⟨hp, ha | hw⟩ := edgeFetch_cases p s
    · cases hr.symm.trans hedge
      cases he
      exact .inl ⟨hi, rfl⟩
    · cases hb.symm.trans hedge
      obtain ⟨hidle, hlast⟩ :=
        State.beat_leaves_drain (s := s.popStim) hp (outcome_eq_next.1 he) (hp ▸ hne)
      exact .inr (.inr (.inr ⟨hp, hidle, hi, hlast⟩))
    · cases hw.symm.trans hedge
    · cases hl.symm.trans hedge
      exact .inr (.inr (.inl ⟨hp, exec_latchedCommand_phase (s := s.popStim) hp he, hi⟩))
    · cases ha.symm.trans hedge
      cases (execCmdAccept_idle (s := s.popStim) hp p.cw).symm.trans he
      exact .inr (.inl ⟨hp, rfl, p.cw, hi⟩)
    · cases hw.symm.trans hedge

/-- Settles O6. -/
theorem resetStateValues : Obligations.ResetStateValues :=
  ⟨rfl, rfl, rfl, rfl, rfl, rfl⟩

/-- Settles O8: the store is empty and no frame is being drained. -/
theorem resetMeetsInvariant : Obligations.ResetMeetsInvariant :=
  inv_iff.2 ⟨⟨Memory.wf_reset, Nat.zero_le _, fun i hi => absurd hi (Nat.not_lt_zero i)⟩,
    .of_ne (by decide) (Nat.zero_le _)⟩

end Sys2Proof.Machine
end

section
/-! PROOFS. What a step makes of the stimulus it is given, what the output port shows along a drain and what the sink has
got at its end, and that the Orange frame decodes to its code word. -/

namespace Sys2Proof.Machine

open Sys2Proof.Safety

/-! ### The operation a step is given (R90; log 1) -/

/-- Itself or as a word, a presented operation is fetched as one that a test bench issues. -/
theorem fetch_of_presents {s : State} {i : Instr} {rest : List Stimulus} (h : Presents s i rest) :
    fetch s = benchFetch i s := by
  obtain hop | ⟨f, w, hword, hdecode⟩ := h
  · simp [fetch, hop]
  · simp [fetch, hword, hdecode]

theorem State.popStim_of_stim {s : State} {x : Stimulus} {rest : List Stimulus} (h : s.stim = x :: rest) :
    s.popStim = { s with stim := rest } := by
  simp [State.popStim, h]

theorem popStim_of_presents {s : State} {i : Instr} {rest : List Stimulus} (h : Presents s i rest) :
    s.popStim = { s with stim := rest } := by
  obtain hop | ⟨f, w, hword, -⟩ := h
  · exact State.popStim_of_stim hop
  · exact State.popStim_of_stim hword

theorem benchFetch_run {i : Instr} {s : State} (h : s.phase ≠ .drain ∨ runsInDrain i = true) :
    benchFetch i s = .run i := by
  obtain ⟨hrun, -⟩ | ⟨-, hdrain, hheld⟩ := benchFetch_cases i s
  · exact hrun
  · simp [hdrain, hheld] at h

theorem benchFetch_wait {i : Instr} {s : State} (hp : s.phase = .drain) (hi : runsInDrain i = false) :
    benchFetch i s = .wait := by
  simp [benchFetch, outValid, hp, hi]

theorem step_of_fetch_run {s : State} {i : Instr} (h : fetch s = .run i) : step s = exec i s.popStim := by
  simp [step, h]

theorem step_of_fetch_wait {s : State} (h : fetch s = .wait) : step s = .next s.popStim := by
  simp [step, h]

/-- The decoder reads a table word in the format that `withFetchWord` presents it in (log 2). -/
theorem decodeTableWord_eq_some {nbits w : Nat} {i : Instr} :
    decodeTableWord nbits w = some i ↔ decode (tableFormat nbits) w = .ok i := by
  unfold decodeTableWord
  split
  case h_1 j hj => simp [hj]
  case h_2 r hr => simp [hr]

/-- A table word is presented to a block that no command owns. -/
theorem State.withFetchWord_presents {nbits w : Nat} {i : Instr} (h : decodeTableWord nbits w = some i) (s : State) :
    Presents (s.withFetchWord nbits w) i s.stim :=
  .inr ⟨_, _, s.withFetchWord_stim nbits w, decodeTableWord_eq_some.1 h⟩

/-! ### The output port (R52, R53) -/

theorem outValid_iff {s : State} : outValid s = true ↔ s.phase = .drain := decide_eq_true_iff

theorem cmdReady_iff {s : State} : cmdReady s = true ↔ s.phase = .idle := decide_eq_true_iff

theorem outValid_eq_false {s : State} (h : s.phase ≠ .drain) : outValid s = false := decide_eq_false h

/-- The carrier of a protocol (R25). -/
theorem row_freq (p : Proto) : (Config.row p).freq = if p = .orange then 33 else 38 := by
  cases p <;> rfl

/-! ### The edges of a drain (R62, R183, R185, R238) -/

/-- A run of one step more goes on from what the first step answers. -/
theorem run_succ {s t : State} (h : step s = .next t) (n : Nat) :
    Host.Core.run core (n + 1) s = Host.Core.run core n t := by
  have hcore : core.step s = .next t := h
  simp only [Host.Core.run, hcore]

/-- An edge at which the sink is not ready: nothing but the edge is gone (R238). -/
theorem step_stall {s : State} {p : Pins} {rest : List Stimulus} (hs : s.stim = .pins p :: rest)
    (hp : s.phase = .drain) (hrst : p.rst = false) (hready : p.outReady = false) :
    step s = .next { s with stim := rest } := by
  have hf : fetch s = .wait := by simp [fetch, hs, edgeFetch, hrst, hp, hready]
  rw [step_of_fetch_wait hf, State.popStim_of_stim hs]

/-- An edge at which the sink takes element `RPTR` (R183, R185). -/
theorem step_take {s : State} {l : List Nat} {p : Pins} {rest : List Stimulus} (hs : s.stim = .pins p :: rest)
    (hh : Holds s.tl l) (hp : s.phase = .drain) (hr : s.rptr < l.length) (hrst : p.rst = false)
    (hready : p.outReady = true) :
    step s = .next { s with
      stim  := rest
      sink  := s.sink ++ [.beat l[s.rptr] (decide (s.rptr + 1 = l.length)) l.length s.freq]
      rptr  := s.rptr + 1
      phase := if s.rptr + 1 = l.length then .idle else .drain } := by
  have hf : fetch s = .run .drainBeat := by simp [fetch, hs, edgeFetch, hrst, hp, hready]
  rw [step_of_fetch_run hf, State.popStim_of_stim hs]
  exact outcome_eq_next.2 (State.beat_holds (s := { s with stim := rest }) hh hp hr)

/-- From any element of a frame on, edges of which as many are taken as elements are left, the last among them, hand over
those elements and end in `IDLE`. -/
theorem run_drain {l : List Nat} {p : Pins} {rest : List Stimulus} (hlast : p.outReady = true) (ps : List Pins)
    {s : State} (hh : Holds s.tl l) (hp : s.phase = .drain) (hs : s.stim = (ps ++ [p]).map .pins ++ rest)
    (hrst : ∀ q ∈ ps ++ [p], q.rst = false)
    (hcount : s.rptr + (ps ++ [p]).countP (fun q => q.outReady) = l.length) :
    Host.Core.run core (ps.length + 1) s = .next { s with
      stim := rest, phase := .idle, rptr := l.length, sink := s.sink ++ (frameBeats l s.freq).drop s.rptr } := by
  induction ps generalizing s with
  | nil =>
    have hend : s.rptr + 1 = l.length := by simpa [hlast] using hcount
    have hlt : s.rptr < l.length := by omega
    have hdone : (frameBeats l s.freq).drop l.length = [] := List.drop_eq_nil_of_le (frameBeats_length l s.freq).le
    rw [List.length_nil, run_succ (step_take hs hh hp hlt (hrst p (by simp)) hlast)]
    simp [Host.Core.run, frameBeats_drop hlt, hend, hdone]
  | cons q ps ih =>
    have hq : q.rst = false := hrst q (by simp)
    have hrst' : ∀ q ∈ ps ++ [p], q.rst = false := fun q hq => hrst q (List.mem_cons_of_mem _ hq)
    cases hready : q.outReady with
    | false =>
      have hcount' : s.rptr + (ps ++ [p]).countP (fun q => q.outReady) = l.length := by
        simpa [List.countP_cons, hready] using hcount
      exact (run_succ (step_stall hs hp hq hready) _).trans
        (ih (s := { s with stim := (ps ++ [p]).map .pins ++ rest }) hh hp rfl hrst' hcount')
    | true =>
      have hmore : 0 < (ps ++ [p]).countP (fun q => q.outReady) := List.countP_pos_iff.2 ⟨p, by simp, hlast⟩
      have hcount' : s.rptr + 1 + (ps ++ [p]).countP (fun q => q.outReady) = l.length := by
        simp only [List.cons_append, List.countP_cons, hready, if_true] at hcount
        omega
      have hlt : s.rptr < l.length := by omega
      have hne : ¬ s.rptr + 1 = l.length := by omega
      have htake := step_take hs hh hp hlt hq hready
      rw [if_neg hne] at htake
      calc Host.Core.run core (ps.length + 1 + 1) s
        _ = Host.Core.run core (ps.length + 1) _ := run_succ htake _
        _ = .next _ := ih hh rfl rfl hrst' hcount'
        _ = .next _ := by simp [frameBeats_drop hlt]

/-! ### Halves of Manchester elements (R54, R129) -/

/-- The polarity of the second half of a Manchester bit: a mark for 1, a space for 0 (R120, R121). -/
def bitPolarity (b : Bool) : Polarity := if b then .mark else .space

/-- The two halves of a Manchester bit. -/
def bitHalves (b : Bool) : List Polarity := [bitPolarity (!b), bitPolarity b]

theorem elementPolarity_succ {i : Nat} {m : Bool} (h : elementPolarity i = bitPolarity m) :
    elementPolarity (i + 1) = bitPolarity (!m) := by
  have hparity : i % 2 = 0 ↔ m = true := by
    cases m <;> simpa [elementPolarity, bitPolarity] using h
  cases m with
  | false =>
    have hsucc : (i + 1) % 2 = 0 := by simp at hparity; omega
    simp [elementPolarity, bitPolarity, hsucc]
  | true =>
    have hsucc : (i + 1) % 2 ≠ 0 := by simp at hparity; omega
    simp [elementPolarity, bitPolarity, hsucc]

/-- Manchester bits behind an element of `k` units show as `k` halves of its polarity and two halves for each bit,
whichever of the halves have merged. -/
theorem halves_manRuns {u : Nat} (hu : 0 < u) (bs : List Bool) (k i : Nat) (m : Bool)
    (hi : elementPolarity i = bitPolarity m) :
    halves u i (manRuns u (k * u) m bs) = List.replicate k (bitPolarity m) ++ bs.flatMap bitHalves := by
  have hone : u / u = 1 := Nat.div_self hu
  induction bs generalizing k i m with
  | nil => simp [manRuns, halves, Nat.mul_div_cancel k hu, hi]
  | cons b bs ih =>
    rw [manRuns]
    have hsucc := elementPolarity_succ hi
    split
    case isTrue hb =>
      subst hb
      have hrest := ih 1 (i + 1 + 1) b (by simpa using elementPolarity_succ hsucc)
      rw [Nat.one_mul] at hrest
      simp [halves, Nat.mul_div_cancel k hu, hone, hi, hsucc, hrest, bitHalves]
    case isFalse hb =>
      obtain rfl : m = !b := Bool.eq_not_iff.2 (Ne.symm hb)
      have hrest := ih 1 (i + 1) b (by simpa using hsucc)
      rw [Nat.one_mul] at hrest
      have hmerge : (k * u + u) / u = k + 1 := by rw [← Nat.succ_mul, Nat.mul_div_cancel _ hu]
      simp [halves, hmerge, hi, hrest, bitHalves, List.replicate_succ']

/-- The decoder of R129 reads the halves of bits as the bits. -/
theorem decodeHalves_bitHalves (bs : List Bool) : decodeHalves (bs.flatMap bitHalves) = some bs := by
  induction bs with
  | nil => rfl
  | cons b bs ih =>
    cases b <;> simp [bitHalves, bitPolarity, decodeHalves, ih]

/-! ### The Orange frame as three equal blocks (R145, R146) -/

/-- The last bit decides the polarity of the last element, so its index parity. -/
theorem manRuns_concat_length (u x : Nat) (m b : Bool) (bs : List Bool) :
    (manRuns u x m (bs ++ [b])).length % 2 = if b = m then 1 else 0 := by
  induction bs generalizing x m with
  | nil => by_cases hb : b = m <;> simp [manRuns, hb]
  | cons c bs ih =>
    have hrest := ih u c
    rw [List.cons_append, manRuns]
    split
    case isTrue hc => subst hc; simp only [List.length_cons]; omega
    case isFalse hc =>
      have hbm : b = m ↔ ¬ b = c := by
        rw [Bool.eq_not_iff.2 (Ne.symm hc), Bool.eq_not_iff]
      simp only [List.length_cons, hbm, ite_not]
      split
      case isTrue hbc => rw [if_pos hbc] at hrest; omega
      case isFalse hbc => rw [if_neg hbc] at hrest; omega

/-- The bits of a number end in bit 0 (R123). -/
theorem numBits_succ (v w : Nat) : numBits v (w + 1) = numBits (v / 2) w ++ [v.testBit 0] := by
  simp [numBits, List.range_succ_eq_map, Function.comp_def, Nat.testBit_succ]

/-- The block that one repetition adds (R145): the header's mark of three units, then its space of three units with what
the code bits make of it. -/
def orangeBlock (code : BitVec 34) : List Nat := 2976 :: manRuns 992 2976 false (numBits code.toNat 34)

/-- Behind a space, a repetition adds its block as it stands: the header's mark merges with nothing. -/
theorem addOrangeBlock_even (code : BitVec 34) {l : List Nat} (h : l.length % 2 = 0) :
    addOrangeBlock code l = l ++ orangeBlock code := by
  rw [addOrangeBlock_eq, addMark_space h, orangeBlock, List.append_assoc, List.singleton_append]

/-- A code whose bit 0 is 0 ends its block in a space. -/
theorem orangeBlock_length_even {code : BitVec 34} (h : code.getLsbD 0 = false) : (orangeBlock code).length % 2 = 0 := by
  have hbit : code.toNat.testBit 0 = false := h
  have hbits : numBits code.toNat 34 = numBits (code.toNat / 2) 33 ++ [false] := by rw [numBits_succ, hbit]
  have hodd := manRuns_concat_length 992 2976 false false (numBits (code.toNat / 2) 33)
  rw [if_pos rfl, ← hbits] at hodd
  rw [orangeBlock, List.length_cons]
  omega

theorem orangeFrame_eq_blocks {code : BitVec 34} (h : code.getLsbD 0 = false) :
    orangeFrame code = orangeBlock code ++ orangeBlock code ++ orangeBlock code ++ [3968] := by
  have heven := orangeBlock_length_even h
  have heven₂ : (orangeBlock code ++ orangeBlock code).length % 2 = 0 := by rw [List.length_append]; omega
  have heven₃ : (orangeBlock code ++ orangeBlock code ++ orangeBlock code).length % 2 = 0 := by
    rw [List.length_append]; omega
  rw [orangeFrame, addOrangeBlock_even code (l := []) rfl, List.nil_append, addOrangeBlock_even code heven,
    addOrangeBlock_even code heven₂, addMark_space heven₃]

/-- The code word of every configuration ends in 0 (R74). -/
theorem orangeWord_getLsbD_zero (c : Cfg) (m : BitVec 3) : (orangeWord c m).getLsbD 0 = false := by
  rw [orangeWord, BitVec.getLsbD_append]
  rfl

/-- The halves of a block: the header's six, then two for each code bit. -/
theorem halves_orangeBlock (code : BitVec 34) : halves 992 0 (orangeBlock code) =
    [.mark, .mark, .mark, .space, .space, .space] ++ (numBits code.toNat 34).flatMap bitHalves :=
  calc halves 992 0 (orangeBlock code)
    _ = [.mark, .mark, .mark] ++ halves 992 1 (manRuns 992 (3 * 992) false (numBits code.toNat 34)) := rfl
    _ = _ := by rw [halves_manRuns (by decide) _ 3 1 false rfl]; rfl

/-! ### The obligations -/

/-- Settles O34: the code word ends in 0, so the three blocks stay apart, and the halves of each are the header's and
those of the code bits. -/
theorem orangeFrameCarriesTheCode : Obligations.OrangeFrameCarriesTheCode := by
  intro s c hp
  obtain ⟨t, he, hh, hcode, -⟩ := exec_encOrange_idle hp c
  have hzero : t.codeO.getLsbD 0 = false := hcode ▸ orangeWord_getLsbD_zero c _
  refine ⟨t, orangeBlock t.codeO, he, orangeFrame_eq_blocks hzero ▸ hh, ?_⟩
  rw [halves_orangeBlock]
  exact ⟨rfl, decodeHalves_bitHalves _⟩

/-- Settles O52: in `DRAIN` by what the invariant says of a frame that is drained, elsewhere by `out_valid` = 0. -/
theorem outputPortShowsTheFrame : Obligations.OutputPortShowsTheFrame := by
  intro s hs
  obtain ⟨-, -, hplay⟩ := hs
  refine ⟨fun hp => ?_, fun hp => ?_, cmdReady_iff⟩
  · obtain ⟨⟨hlen, hread⟩, hfreq, hlt, -⟩ := hplay hp
    have hvalid := outValid_iff.2 hp
    have hready : cmdReady s = false := by simp [cmdReady, hp]
    simp [hvalid, hready, outData, outLast, frmCount, frmFreq, hread _ (hlen ▸ hlt), hlen, hfreq, row_freq]
  · simp [outValid_eq_false hp, outData, outLast, frmCount, frmFreq]

/-- Settles O55: the drain from its first element on. -/
theorem drainDeliversTheFrame : Obligations.DrainDeliversTheFrame := by
  intro s l ps p rest hh hp hr hs hrst hlast hcount
  have hrun := run_drain hlast ps hh hp hs hrst (by rw [hr, Nat.zero_add, hcount])
  rwa [hr, List.drop_zero] at hrun

/-- Settles O4, by what a presented operation is fetched as. -/
theorem stepRunsThePresentedOperation : Obligations.StepRunsThePresentedOperation := by
  constructor
  · intro s i rest h
    constructor
    · intro hruns
      rw [step_of_fetch_run ((fetch_of_presents h).trans (benchFetch_run hruns)), popStim_of_presents h]
    · intro hp hi
      rw [step_of_fetch_wait ((fetch_of_presents h).trans (benchFetch_wait hp hi)), popStim_of_presents h]
  · intro s nbits w i h
    have hpres := State.withFetchWord_presents h s
    have hfetch := (fetch_of_presents hpres).trans (benchFetch_run (.inl (by simp)))
    exact step_of_fetch_run hfetch

end Sys2Proof.Machine
end

section
/-! PROOFS. The three formats that select an operation: `decode` and `encode` are inverse to each other; and the temperature
that the two code words carry. -/

namespace Sys2Proof.Machine

open Sys2Proof.Safety

/-! ### The command word (R71) -/

theorem protoBit_cwProto (w : CmdWord) : protoBit (cwProto w) = w.getLsbD 16 := by
  unfold cwProto
  cases w.getLsbD 16 <;> rfl

theorem cwProto_encodeCW (p : Proto) (c : Cfg) : cwProto (encodeCW p c) = p := by
  rw [cwProto, encodeCW_getLsbD p c (by decide)]
  cases p <;> rfl

/-- Each field is cut out at the position where R71 puts it. -/
theorem cwCfg_encodeCW (p : Proto) (c : Cfg) : cwCfg (encodeCW p c) = c := by
  have hpower : (encodeCW p c).getLsbD 15 = c.power := encodeCW_getLsbD p c (by decide)
  have hmode : (encodeCW p c).extractLsb' 12 3 = c.mode := BitVec.eq_of_getLsbD_eq fun i hi => by
    rw [BitVec.getLsbD_extractLsb', encodeCW_getLsbD p c (by omega)]
    interval_cases i <;> rfl
  have hfan : (encodeCW p c).extractLsb' 10 2 = c.fan := BitVec.eq_of_getLsbD_eq fun i hi => by
    rw [BitVec.getLsbD_extractLsb', encodeCW_getLsbD p c (by omega)]
    interval_cases i <;> rfl
  have htemp : (encodeCW p c).extractLsb' 2 8 = c.temp := BitVec.eq_of_getLsbD_eq fun i hi => by
    rw [BitVec.getLsbD_extractLsb', encodeCW_getLsbD p c (by omega)]
    interval_cases i <;> rfl
  have hswing : (encodeCW p c).getLsbD 1 = c.swing := encodeCW_getLsbD p c (by decide)
  have hsleep : (encodeCW p c).getLsbD 0 = c.sleep := encodeCW_getLsbD p c (by decide)
  rw [cwCfg, hpower, hmode, hfan, htemp, hswing, hsleep]

theorem decodeCW_encodeCW (p : Proto) (c : Cfg) : decodeCW (encodeCW p c) = commandOf p c := by
  rw [decodeCW, cwProto_encodeCW, cwCfg_encodeCW]

/-- Every bit of a command word belongs to a field (R88). -/
theorem encodeCW_cwProto_cwCfg (w : CmdWord) : encodeCW (cwProto w) (cwCfg w) = w :=
  BitVec.eq_of_getLsbD_eq fun i hi => by
    rw [encodeCW_getLsbD _ _ hi, protoBit_cwProto]
    interval_cases i <;> simp [cwCfg]

theorem encode_commandOf (p : Proto) (c : Cfg) : encode (commandOf p c) = some (.cw, (encodeCW p c).toNat) := by
  cases p <;> rfl

/-! ### The push word (R72) -/

/-- The push a polarity bit and a duration name. -/
def pushOf (space : Bool) (d : Nat) : Instr := if space then .tlSpace d else .tlMark d

theorem decodePW_eq_pushOf (w : BitVec 17) : decodePW w = pushOf (w.getLsbD 16) (w.extractLsb' 0 16).toNat := rfl

theorem encode_pushOf (space : Bool) (d : Nat) : encode (pushOf space d) = encodePush space d := by
  cases space <;> rfl

/-- The low 16 bits carry the duration, as far as it is in range (R72, R102, R103). -/
theorem decodePW_encodePW (space : Bool) {d : Nat} (hd : d ≤ Config.durMax) :
    decodePW (encodePW space d) = pushOf space d := by
  have hspace : (encodePW space d).getLsbD 16 = space := encodePW_getLsbD space d (by decide)
  have hdur : ((encodePW space d).extractLsb' 0 16).toNat = d := by
    rw [BitVec.extractLsb'_toNat, encodePW, toNat_concat, BitVec.toNat_ofNat, Nat.shiftRight_zero]
    have hd' : d ≤ 65535 := hd
    omega
  rw [decodePW_eq_pushOf, hspace, hdur]

theorem encodePW_fields (w : BitVec 17) : encodePW (w.getLsbD 16) (w.extractLsb' 0 16).toNat = w :=
  BitVec.eq_of_getLsbD_eq fun i hi => by
    rw [encodePW_getLsbD _ _ hi, ← BitVec.getLsbD, BitVec.getLsbD_extractLsb']
    interval_cases i <;> rfl

/-! ### Words of any format (R70) -/

theorem decode_cw (w : CmdWord) : decode .cw w.toNat = .ok (decodeCW w) :=
  (if_pos w.isLt).trans (by rw [BitVec.ofNat_toNat, BitVec.setWidth_eq])

theorem decode_pw (w : BitVec 17) : decode .pw w.toNat = .ok (decodePW w) :=
  (if_pos w.isLt).trans (by rw [BitVec.ofNat_toNat, BitVec.setWidth_eq])

theorem decode_bw (w : BitVec 2) : decode .bw w.toNat = .ok (decodeBW w) :=
  (if_pos w.isLt).trans (by rw [BitVec.ofNat_toNat, BitVec.setWidth_eq])

theorem encode_decodeCW (w : CmdWord) : encode (decodeCW w) = some (.cw, w.toNat) := by
  rw [decodeCW, encode_commandOf, encodeCW_cwProto_cwCfg]

theorem encode_decodePW (w : BitVec 17) : encode (decodePW w) = some (.pw, w.toNat) := by
  have hd : (w.extractLsb' 0 16).toNat ≤ Config.durMax := Nat.le_of_lt_succ (BitVec.isLt _)
  rw [decodePW_eq_pushOf, encode_pushOf, encodePush_of_le _ hd, encodePW_fields]

theorem encode_decodeBW (w : BitVec 2) : encode (decodeBW w) = some (.bw, w.toNat) := by
  revert w; decide

/-- Inside the width every number is the word of the operation it selects (R88). -/
theorem decode_of_lt_width {f : WordFormat} {w : Nat} (h : w < 2 ^ f.width) :
    ∃ i, decode f w = .ok i ∧ encode i = some (f, w) := by
  cases f with
  | cw => exact ⟨_, decode_cw ⟨w, h⟩, encode_decodeCW ⟨w, h⟩⟩
  | pw => exact ⟨_, decode_pw ⟨w, h⟩, encode_decodePW ⟨w, h⟩⟩
  | bw => exact ⟨_, decode_bw ⟨w, h⟩, encode_decodeBW ⟨w, h⟩⟩

/-- Outside the width no number is a word (R70). -/
theorem decode_of_width_le {f : WordFormat} {w : Nat} (h : 2 ^ f.width ≤ w) : ∃ r, decode f w = .error r := by
  cases f with
  | cw | pw | bw => exact ⟨_, if_neg (Nat.not_lt.2 h)⟩

theorem decode_encodeCW (p : Proto) (c : Cfg) : decode .cw (encodeCW p c).toNat = .ok (commandOf p c) := by
  rw [decode_cw, decodeCW_encodeCW]

/-- A push that has a word is read back from it. -/
theorem decode_of_encodePush {space : Bool} {d : Nat} {f : WordFormat} {w : Nat}
    (h : encodePush space d = some (f, w)) : decode f w = .ok (pushOf space d) := by
  obtain hd | hd := Nat.lt_or_ge Config.durMax d
  · cases (encodePush_of_lt space hd).symm.trans h
  · cases (encodePush_of_le space hd).symm.trans h
    rw [decode_pw, decodePW_encodePW space hd]

/-- The word of an operation decodes to it. -/
theorem decode_of_encode {i : Instr} {f : WordFormat} {w : Nat} (h : encode i = some (f, w)) : decode f w = .ok i := by
  cases i with
  | encOrange c => cases h; exact decode_encodeCW .orange c
  | encGreen c => cases h; exact decode_encodeCW .green c
  | tlMark d => exact decode_of_encodePush (space := false) h
  | tlSpace d => exact decode_of_encodePush (space := true) h
  | man0 | man1 | pd0 | pd1 => cases h; rfl
  | _ => cases h

/-- `WordFits.Statement` of every operation: only the table's encoded rows have a word. -/
theorem wordFits (i : Instr) : Laws.WordFits.Statement i := by
  cases i with
  | encOrange c => exact Laws.WordFits.encOrange c
  | encGreen c => exact Laws.WordFits.encGreen c
  | tlMark d => exact Laws.WordFits.tlMark d
  | tlSpace d => exact Laws.WordFits.tlSpace d
  | man0 => exact Laws.WordFits.man0
  | man1 => exact Laws.WordFits.man1
  | pd0 => exact Laws.WordFits.pd0
  | pd1 => exact Laws.WordFits.pd1
  | _ => exact ⟨rfl, fun _ _ h => nomatch h⟩

theorem encode_isSome (i : Instr) : (encode i).isSome = (i.isEncoded && WellFormed i) := (wordFits i).1

theorem encode_lt_width {i : Instr} {f : WordFormat} {w : Nat} (h : encode i = some (f, w)) : w < 2 ^ f.width :=
  (wordFits i).2 f w h

/-! ### The temperature fields (R77, R81) -/

theorem temp15_toNat {t : BitVec 8} (hlo : 15 ≤ t.toNat) (hhi : t.toNat ≤ 30) : (temp15 t).toNat + 15 = t.toNat := by
  rw [temp15, BitVec.toNat_ofNat]
  omega

/-- Bits 22:19 of the Orange code word are `temp15` (R74). -/
theorem orangeWord_temp (c : Cfg) (m : BitVec 3) : (orangeWord c m).extractLsb' 19 4 = temp15 c.temp := by
  apply BitVec.eq_of_toNat_eq
  have hsleep := c.sleep.toNat_lt
  have htemp := (temp15 c.temp).isLt
  rw [BitVec.extractLsb'_toNat, orangeWord_toNat, Nat.shiftRight_eq_div_pow]
  omega

theorem thigh_toNat {t : BitVec 8} (hhi : t.toNat ≤ 30) : (thigh t).toNat = t.toNat / 8 - 1 := by
  rw [thigh, BitVec.toNat_ofNat]
  omega

theorem tempValid_of_inRange {c : Cfg} (h : TempInRange c) : tempValid c.temp = true := by
  obtain ⟨hlo, hhi⟩ := h
  simp [tempValid, hlo, hhi]

/-- Byte 1 of the Green buffer for a valid temperature (R78). -/
theorem greenByte1_of_inRange (k : Config.GreenTlow) {c : Cfg} (draw : Byte) (h : TempInRange c) :
    greenByte1 k c draw = thigh c.temp ++ tlow k c.temp ++ nvswing c.swing := if_pos (tempValid_of_inRange h)

/-- Bits 7:6 and 5:3 of byte 1 are the two temperature fields (R78). -/
theorem greenByte1_fields {x : BitVec 2} {y z : BitVec 3} :
    (x ++ y ++ z).extractLsb' 6 2 = x ∧ (x ++ y ++ z).extractLsb' 3 3 = y := by
  revert x y z; decide

/-- `tlow` of either formula as a number (R81). -/
theorem tlow_toNat (k : Config.GreenTlow) (t : BitVec 8) : (tlow k t).toNat = if k = .mod8 then t.toNat % 8 else 0 := by
  cases k with
  | mod8 => exact tlow_mod8_toNat t
  | srcAnd8 => rw [tlow_srcAnd8]; rfl

/-! ### The obligations -/

/-- Settles O1: a well-formed encoded operation has a word, and the word of an operation decodes to it. -/
theorem decodeOfEncodeIsTheOperation : Obligations.DecodeOfEncodeIsTheOperation := by
  intro i henc hwf
  have hsome : (encode i).isSome = true := by rw [encode_isSome, henc, hwf]; rfl
  obtain ⟨⟨f, w⟩, hw⟩ := Option.isSome_iff_exists.1 hsome
  exact ⟨f, w, hw, encode_lt_width hw, decode_of_encode hw⟩

/-- Settles O2: below the width the selected operation has the number as its word, and what has a word is well formed. -/
theorem everyWordDecodesAndEncodesBack : Obligations.EveryWordDecodesAndEncodesBack := by
  refine ⟨fun f w => ⟨fun hw => ?_, decode_of_width_le⟩, fun i h => ?_⟩
  · obtain ⟨i, hdec, henc⟩ := decode_of_lt_width hw
    have hword : (i.isEncoded && WellFormed i) = true := by rw [← encode_isSome, henc]; rfl
    obtain ⟨-, hwf⟩ := Bool.and_eq_true_iff.1 hword
    exact ⟨i, hdec, hwf, henc⟩
  · have hnone : (encode i).isSome = false := by rw [encode_isSome]; exact Bool.and_eq_false_iff.2 h
    exact Option.isNone_iff_eq_none.1 (Option.isSome_eq_false_iff.1 hnone)

/-- Settles O36, field by field: `temp15` for Orange, `thigh` and `tlow` for Green. -/
theorem temperatureReadsBack : Obligations.TemperatureReadsBack := by
  intro s hs
  have ⟨hlo, hhi⟩ := hs
  refine ⟨⟨s.assembleOrange, rfl, ?_⟩, s.assembleGreen, rfl, ?_⟩
  · rw [State.assembleOrange_codeO, orangeWord_temp, temp15_toNat hlo hhi]
  · have hb1 : s.assembleGreen.gbuf.b1 = thigh s.cfg.temp ++ tlow s.greenTlow s.cfg.temp ++ nvswing s.cfg.swing :=
      greenByte1_of_inRange _ _ hs
    rw [hb1, greenByte1_fields.1, greenByte1_fields.2, thigh_toNat hhi, tlow_toNat]
    split <;> omega

/-- Settles O3: the command and push words are those of their operations. -/
theorem exampleWordsDecode : Obligations.ExampleWordsDecode :=
  ⟨decode_encodeCW .orange ⟨true, 0, 0, 24, false, false⟩, decode_encodeCW .green ⟨true, 0, 0, 24, false, false⟩,
    decode_of_encode (i := .tlMark 2976) rfl, decode_of_encode (i := .tlSpace 4500) rfl,
    decode_bw 0, decode_bw 1, decode_bw 2, decode_bw 3⟩

end Sys2Proof.Machine
end

section
/-! PROOFS. The Timeline unit: what the store holds after each operation, where an operation faults, that a push conserves
time, and that appending a built Timeline is issuing the operations that built it. -/

namespace Sys2Proof.Machine

open Sys2Proof.Safety

/-! ### The push word as a number (R72) -/

theorem encodePush_eq (space : Bool) {d : Nat} (hd : d ≤ 65535) :
    encodePush space d = some (.pw, space.toNat * 2 ^ 16 + d) := by
  rw [encodePush_of_le space hd, encodePW, toNat_concat, BitVec.toNat_ofBool, BitVec.toNat_ofNat,
    Nat.mod_eq_of_lt (Nat.lt_succ_of_le hd)]

/-! ### `TL_MARK` and `TL_SPACE`, by the parity of the length (R102, R103) -/

/-- The last element is a mark: it grows. -/
theorem TL.mark_of_odd (d : Nat) {tl : TL} (h : tl.len % 2 = 1) : TL.mark d tl = TL.extend d tl := by
  rw [TL.mark, if_neg (by omega), if_pos h]

/-- The Timeline is empty or the last element is a space: a new element. -/
theorem TL.mark_of_even (d : Nat) {tl : TL} (h : ¬ tl.len % 2 = 1) : TL.mark d tl = TL.push d tl := by
  rw [TL.mark, if_neg h, ite_self]

theorem TL.space_of_empty (d : Nat) {tl : TL} (h : tl.len = 0) :
    TL.space d tl = (TL.push 0 tl).bind (TL.push d) := by
  rw [TL.space, if_pos h]

/-- The last element is a space: it grows. -/
theorem TL.space_of_even (d : Nat) {tl : TL} (h0 : tl.len ≠ 0) (h : tl.len % 2 = 0) :
    TL.space d tl = TL.extend d tl := by
  rw [TL.space, if_neg h0, if_pos h]

/-- The last element is a mark: a new element. -/
theorem TL.space_of_odd (d : Nat) {tl : TL} (h : tl.len % 2 = 1) : TL.space d tl = TL.push d tl := by
  rw [TL.space, if_neg (by omega), if_neg (by omega)]

theorem TL.push_full (d : Nat) {tl : TL} (h : 256 ≤ tl.len) : TL.push d tl = .error .timelineFull := by
  rw [TL.push, if_pos h]

/-! ### The length of the list after a push -/

theorem addMark_length (d : Nat) (l : List Nat) :
    (addMark d l).length = if l.length % 2 = 1 then l.length else l.length + 1 := by
  unfold addMark
  split
  · exact length_bumpLast d l
  · simp

theorem addSpace_nil (d : Nat) : addSpace d [] = [0, d] := rfl

theorem addSpace_length (d : Nat) {l : List Nat} (h : l ≠ []) :
    (addSpace d l).length = if l.length % 2 = 0 then l.length else l.length + 1 := by
  rw [addSpace, if_neg h]
  split
  · exact length_bumpLast d l
  · simp

/-- Index 256 is even, so no space creates it where the list before fits. -/
theorem addSpace_length_le (d : Nat) {l : List Nat} (h : l.length ≤ 256) : (addSpace d l).length ≤ 256 := by
  by_cases hnil : l = []
  · subst hnil
    simp [addSpace_nil]
  · rw [addSpace_length d hnil]
    split <;> omega

/-! ### What the store holds after a push that answers -/

theorem TL.push_holds_of_ok {d : Nat} {tl tl' : TL} {l : List Nat} (h : Holds tl l) (hp : TL.push d tl = .ok tl') :
    Holds tl' (l ++ [d]) := by
  obtain ⟨-, -, rfl⟩ := TL.push_eq_ok.1 hp
  exact Holds_push h

theorem TL.extend_holds_of_ok {d : Nat} {tl tl' : TL} {l : List Nat} (h : Holds tl l) (hne : l ≠ [])
    (hp : TL.extend d tl = .ok tl') : Holds tl' (bumpLast d l) := by
  obtain ⟨r, x, rfl⟩ := List.eq_nil_or_concat l |>.resolve_left hne
  rw [List.concat_eq_append] at h ⊢
  obtain ⟨hx, hh⟩ := Holds_extend (d := d) h
  obtain ⟨v, hv, -, rfl⟩ := TL.extend_eq_ok.1 hp
  cases hx.symm.trans hv
  exact bumpLast_append d x r ▸ hh

/-- R102, whatever the store holds. -/
theorem TL.mark_holds_of_ok {d : Nat} {tl tl' : TL} {l : List Nat} (h : Holds tl l) (hp : TL.mark d tl = .ok tl') :
    Holds tl' (addMark d l) := by
  have hlen := h.1
  unfold addMark
  split
  · next hodd =>
    have hne : l ≠ [] := by rintro rfl; simp at hodd
    rw [TL.mark_of_odd d (hlen ▸ hodd)] at hp
    exact TL.extend_holds_of_ok h hne hp
  · next heven =>
    rw [TL.mark_of_even d (hlen ▸ heven)] at hp
    exact TL.push_holds_of_ok h hp

/-- R103, whatever the store holds. -/
theorem TL.space_holds_of_ok {d : Nat} {tl tl' : TL} {l : List Nat} (h : Holds tl l) (hp : TL.space d tl = .ok tl') :
    Holds tl' (addSpace d l) := by
  have hlen := h.1
  unfold addSpace
  split
  · next hnil =>
    subst hnil
    rw [TL.space_of_empty d hlen] at hp
    obtain ⟨u, hzero, hpush⟩ := bind_eq_ok.1 hp
    exact TL.push_holds_of_ok (TL.push_holds_of_ok h hzero) hpush
  · next hne =>
    have h0 : tl.len ≠ 0 := fun h0 => hne (List.length_eq_zero_iff.1 (hlen.symm.trans h0))
    split
    · next heven =>
      rw [TL.space_of_even d h0 (hlen ▸ heven)] at hp
      exact TL.extend_holds_of_ok h hne hp
    · next hodd =>
      rw [TL.space_of_odd d (by omega)] at hp
      exact TL.push_holds_of_ok h hp

/-! ### Total time of marks and spaces (R106) -/

theorem markTime_concat (x : Nat) :
    ∀ l : List Nat, markTime (l ++ [x]) = markTime l + if l.length % 2 = 0 then x else 0
  | [] => by simp [markTime]
  | [_] => by simp [markTime]
  | y :: z :: rest => by simp [markTime, markTime_concat x rest, Nat.add_assoc]

theorem spaceTime_concat (x : Nat) :
    ∀ l : List Nat, spaceTime (l ++ [x]) = spaceTime l + if l.length % 2 = 1 then x else 0
  | [] => by simp [spaceTime]
  | [_] => by simp [spaceTime]
  | y :: z :: rest => by simp [spaceTime, spaceTime_concat x rest, Nat.add_assoc]

/-- Growing the last element adds to its polarity's total and leaves the other. -/
theorem time_bumpLast (d : Nat) {l : List Nat} (h : l ≠ []) :
    markTime (bumpLast d l) = markTime l + (if l.length % 2 = 1 then d else 0) ∧
    spaceTime (bumpLast d l) = spaceTime l + (if l.length % 2 = 0 then d else 0) := by
  obtain ⟨r, x, rfl⟩ := List.eq_nil_or_concat l |>.resolve_left h
  rw [List.concat_eq_append, bumpLast_append]
  simp only [markTime_concat, spaceTime_concat, List.length_append, List.length_singleton]
  constructor <;> split <;> split <;> omega

theorem time_addMark (d : Nat) (l : List Nat) :
    markTime (addMark d l) = markTime l + d ∧ spaceTime (addMark d l) = spaceTime l := by
  unfold addMark
  split
  · next hodd =>
    have hne : l ≠ [] := by rintro rfl; simp at hodd
    simp [time_bumpLast d hne, hodd]
  · next heven =>
    have heven' : l.length % 2 = 0 := by omega
    simp [markTime_concat, spaceTime_concat, heven']

theorem time_addSpace (d : Nat) (l : List Nat) :
    markTime (addSpace d l) = markTime l ∧ spaceTime (addSpace d l) = spaceTime l + d := by
  unfold addSpace
  split
  · next hnil => subst hnil; simp [markTime, spaceTime]
  · next hne =>
    split
    · next heven => simp [time_bumpLast d hne, heven]
    · next hodd =>
      have hodd' : l.length % 2 = 1 := by omega
      simp [markTime_concat, spaceTime_concat, hodd']

/-! ### Reading the store back (R105) -/

theorem TL.readFrom_eq_ok {m : Memory} {l : List Nat} {i : Nat}
    (h : ∀ j, j < l.length → Memory.read m (i + j) = l[j]?) : TL.readFrom m i l.length = .ok l := by
  induction l generalizing i with
  | nil => rfl
  | cons x rest ih =>
    have hx : Memory.read m i = some x := h 0 (by simp)
    have hrest : TL.readFrom m (i + 1) rest.length = .ok rest := by
      refine ih fun j hj => ?_
      rw [Nat.add_right_comm]
      exact h (j + 1) (Nat.succ_lt_succ hj)
    simp [TL.readFrom, hx, hrest]

theorem TL.read_of_holds {tl : TL} {l : List Nat} (h : Holds tl l) : TL.read tl = .ok l := by
  rw [TL.read, h.1]
  refine TL.readFrom_eq_ok fun j hj => ?_
  rw [Nat.zero_add]
  exact h.2 j hj

/-! ### One push of either polarity -/

/-- `TL_SPACE d` if `space`, else `TL_MARK d`: what one push of a sequence does to the store. -/
def TL.pushAs (space : Bool) (d : Nat) (tl : TL) : Except Fault TL := if space then TL.space d tl else TL.mark d tl

theorem runPushes_cons (p : Bool × Nat) (h : List (Bool × Nat)) (tl : TL) :
    runPushes (p :: h) tl = (TL.pushAs p.1 p.2 tl).bind (runPushes h) := rfl

theorem Refines_pushAs (p : Bool × Nat) : Refines (TL.pushAs p.1 p.2) (addPush p) ∧ Grows (addPush p) := by
  obtain ⟨space, d⟩ := p
  cases space
  · exact ⟨Refines_mark d, Grows_addMark d⟩
  · exact ⟨Refines_space d, Grows_addSpace d⟩

/-- The list a sequence of pushes makes of `l`. -/
def pushAll (h : List (Bool × Nat)) (l : List Nat) : List Nat := h.foldl (fun l p => addPush p l) l

theorem Grows_pushAll (h : List (Bool × Nat)) : Grows (pushAll h) :=
  Grows_foldl (fun p => (Refines_pushAs p).2) h

theorem Refines_runPushes (h : List (Bool × Nat)) : Refines (runPushes h) (pushAll h) := by
  induction h with
  | nil => exact Refines.id
  | cons p h ih => exact (Refines_pushAs p).1.comp ih (Refines_pushAs p).2 (Grows_pushAll h)

/-- Where the operation answers, the list the rule gives fits and is what the store holds. -/
theorem Refines.fits_holds_of_ok {f : TL → Except Fault TL} {g : List Nat → List Nat} (hr : Refines f g) {tl tl' : TL}
    {l : List Nat} (hh : Holds tl l) (hf : Fits l) (e : f tl = .ok tl') : Fits (g l) ∧ Holds tl' (g l) := by
  have hg : Fits (g l) := by
    by_contra hn
    obtain ⟨ef, -⟩ | ⟨ef, -⟩ := hr.stops tl l hh hf hn <;> cases e.symm.trans ef
  obtain ⟨u, eu, hu, -⟩ := hr.answers tl l hh hg
  cases e.symm.trans eu
  exact ⟨hg, hu⟩

theorem Holds_unique {tl : TL} {l l' : List Nat} (h : Holds tl l) (h' : Holds tl l') : l = l' := by
  have hlen : l.length = l'.length := h.1.symm.trans h'.1
  refine List.ext_getElem? fun i => ?_
  by_cases hi : i < l.length
  · rw [← h.2 i hi, h'.2 i (hlen ▸ hi)]
  · rw [List.getElem?_eq_none (by omega), List.getElem?_eq_none (by omega)]

/-! ### Pushes of one polarity in a row are one push of their sum -/

theorem bind_ok_right {ε α : Type} (x : Except ε α) : x.bind .ok = x := by
  cases x <;> rfl

theorem bind_congr_of_ok {ε α β : Type} {x : Except ε α} {f g : α → Except ε β} (h : ∀ a, x = .ok a → f a = g a) :
    x.bind f = x.bind g := by
  cases x with
  | error e => rfl
  | ok a => exact h a rfl

theorem TL.push_bind_extend {d d' : Nat} (h : d + d' ≤ Config.durMax) (tl : TL) :
    (TL.push d tl).bind (TL.extend d') = TL.push (d + d') tl := by
  by_cases hfull : 256 ≤ tl.len
  · rw [TL.push_full d hfull, TL.push_full (d + d') hfull, bind_error]
  · have hroom : tl.len < Config.depth := Nat.lt_of_not_le hfull
    rw [TL.push_eq_ok.2 ⟨hroom, Nat.le_trans (Nat.le_add_right d d') h, rfl⟩, TL.push_eq_ok.2 ⟨hroom, h, rfl⟩, bind_ok,
      TL.extend_eq_ok.2 ⟨d, Memory.read_write_same _ _ _, h, rfl⟩, Nat.add_sub_cancel, Memory.write_write_same]

/-- Where the first merge already faults, so does the merge of the sum. -/
theorem TL.extend_bind_extend (d d' : Nat) (tl : TL) :
    (TL.extend d tl).bind (TL.extend d') = TL.extend (d + d') tl := by
  unfold TL.extend
  split
  · rfl
  · next v hv =>
    rw [← Nat.add_assoc]
    split
    · next hover => rw [if_pos (by omega)]; rfl
    · simp [Memory.read_write_same, Memory.write_write_same]

theorem TL.mark_bind_mark {d d' : Nat} (h : d + d' ≤ Config.durMax) (tl : TL) :
    (TL.mark d tl).bind (TL.mark d') = TL.mark (d + d') tl := by
  rw [bind_congr_of_ok fun u hu => TL.mark_of_odd d' (TL.mark_len_odd hu)]
  by_cases hodd : tl.len % 2 = 1
  · rw [TL.mark_of_odd d hodd, TL.mark_of_odd (d + d') hodd, TL.extend_bind_extend]
  · rw [TL.mark_of_even d hodd, TL.mark_of_even (d + d') hodd, TL.push_bind_extend h]

theorem TL.space_bind_space {d d' : Nat} (h : d + d' ≤ Config.durMax) (tl : TL) :
    (TL.space d tl).bind (TL.space d') = TL.space (d + d') tl := by
  rw [bind_congr_of_ok fun u hu => TL.space_of_even d' (TL.space_len_even hu).1 (TL.space_len_even hu).2]
  by_cases h0 : tl.len = 0
  · rw [TL.space_of_empty d h0, TL.space_of_empty (d + d') h0, bind_assoc]
    exact bind_congr_of_ok fun u _ => TL.push_bind_extend h u
  · obtain heven | hodd := Nat.mod_two_eq_zero_or_one tl.len
    · rw [TL.space_of_even d h0 heven, TL.space_of_even (d + d') h0 heven, TL.extend_bind_extend]
    · rw [TL.space_of_odd d hodd, TL.space_of_odd (d + d') hodd, TL.push_bind_extend h]

theorem TL.pushAs_bind_pushAs (space : Bool) {d d' : Nat} (h : d + d' ≤ Config.durMax) (tl : TL) :
    (TL.pushAs space d tl).bind (TL.pushAs space d') = TL.pushAs space (d + d') tl := by
  cases space
  · exact TL.mark_bind_mark h tl
  · exact TL.space_bind_space h tl

/-! ### Replaying a built Timeline (R104, R107) -/

/-- The durations pushed in order, the first as an element of index `i`: a mark at an even index, a space at an odd. -/
def TL.replayFrom (i : Nat) (m : List Nat) (tl : TL) : Except Fault TL := TL.replay m (decide (i % 2 = 0)) tl

theorem TL.replayFrom_nil (i : Nat) (tl : TL) : TL.replayFrom i [] tl = .ok tl := rfl

theorem TL.replayFrom_cons (i x : Nat) (m : List Nat) (tl : TL) :
    TL.replayFrom i (x :: m) tl = (TL.pushAs (decide (i % 2 = 1)) x tl).bind (TL.replayFrom (i + 1) m) := by
  have hnext : TL.replayFrom (i + 1) m = TL.replay m (decide (i % 2 = 1)) :=
    congrArg (TL.replay m) (decide_eq_decide.2 (by omega))
  rw [hnext]
  obtain hi | hi := Nat.mod_two_eq_zero_or_one i <;> simp [TL.replayFrom, TL.replay, TL.pushAs, hi]

/-- The last element of a replay is one more push, of the polarity of its index. -/
theorem TL.replayFrom_concat (i : Nat) (m : List Nat) (x : Nat) (tl : TL) :
    TL.replayFrom i (m ++ [x]) tl =
      (TL.replayFrom i m tl).bind (TL.pushAs (decide ((i + m.length) % 2 = 1)) x) := by
  induction m generalizing i tl with
  | nil =>
    rw [List.nil_append, TL.replayFrom_cons, TL.replayFrom_nil, bind_ok]
    exact bind_ok_right _
  | cons y m ih =>
    rw [List.cons_append, TL.replayFrom_cons, TL.replayFrom_cons, bind_assoc, List.length_cons, ← Nat.add_assoc,
      Nat.add_right_comm]
    exact bind_congr_of_ok fun u _ => ih (i + 1) u

/-- The same where the replay leaves out the first `k` elements of a list. -/
theorem TL.replayFrom_drop_concat {k : Nat} {r : List Nat} (hk : k ≤ r.length) (x : Nat) (tl : TL) :
    TL.replayFrom k ((r ++ [x]).drop k) tl =
      (TL.replayFrom k (r.drop k) tl).bind (TL.pushAs (decide (r.length % 2 = 1)) x) := by
  rw [List.drop_append_of_le_length hk, TL.replayFrom_concat, List.length_drop, Nat.add_sub_cancel' hk]

/-- A push onto a list that is not empty merges exactly when the last element has its polarity. -/
theorem addPush_concat (p : Bool × Nat) (r : List Nat) (x : Nat) :
    addPush p (r ++ [x]) =
      if p.1 = decide (r.length % 2 = 1) then r ++ [x + p.2] else r ++ [x] ++ [p.2] := by
  obtain ⟨space, d⟩ := p
  have hlen : (r ++ [x]).length = r.length + 1 := by simp
  cases space
  · simp only [addPush, addMark, Bool.false_eq_true, if_false, hlen, bumpLast_append, false_eq_decide_iff]
    exact if_congr (by omega) rfl rfl
  · have hne : r ++ [x] ≠ [] := by simp
    simp only [addPush, addSpace, if_true, if_neg hne, hlen, bumpLast_append, true_eq_decide_iff]
    exact if_congr (by omega) rfl rfl

/-- One more push after a replay is the replay of the list with that push on it. -/
theorem TL.replayFrom_addPush {k : Nat} {lb : List Nat} (hk : k < lb.length) {p : Bool × Nat}
    (hf : Fits (addPush p lb)) (tl : TL) :
    (TL.replayFrom k (lb.drop k) tl).bind (TL.pushAs p.1 p.2) = TL.replayFrom k ((addPush p lb).drop k) tl := by
  obtain ⟨r, x, rfl⟩ := List.eq_nil_or_concat lb |>.resolve_left (by rintro rfl; simp at hk)
  rw [List.concat_eq_append] at *
  have hkr : k ≤ r.length := by simpa [Nat.lt_succ_iff] using hk
  rw [addPush_concat] at hf ⊢
  split
  · next hsame =>
    rw [if_pos hsame] at hf
    rw [TL.replayFrom_drop_concat hkr, TL.replayFrom_drop_concat hkr, bind_assoc, ← hsame]
    exact bind_congr_of_ok fun u _ => TL.pushAs_bind_pushAs p.1 (hf.2 _ (by simp)) u
  · next hother =>
    have hpol : p.1 = decide ((r ++ [x]).length % 2 = 1) := by
      rw [List.length_append, List.length_singleton, Bool.eq_not_of_ne hother, ← decide_not]
      exact decide_eq_decide.2 (by omega)
    rw [TL.replayFrom_drop_concat (Nat.le_of_lt hk), ← hpol]

/-- A sequence of pushes after a replay is the replay of the list it builds. -/
theorem TL.replayFrom_pushAll {k : Nat} {lb : List Nat} (hk : k < lb.length) {h : List (Bool × Nat)}
    (hf : Fits (pushAll h lb)) (tl : TL) :
    (TL.replayFrom k (lb.drop k) tl).bind (runPushes h) = TL.replayFrom k ((pushAll h lb).drop k) tl := by
  induction h generalizing lb with
  | nil => exact bind_ok_right _
  | cons p h ih =>
    have hk' : k < (addPush p lb).length := Nat.lt_of_lt_of_le hk ((Refines_pushAs p).2 lb).1
    calc (TL.replayFrom k (lb.drop k) tl).bind (runPushes (p :: h))
      _ = ((TL.replayFrom k (lb.drop k) tl).bind (TL.pushAs p.1 p.2)).bind (runPushes h) := (bind_assoc _ _ _).symm
      _ = (TL.replayFrom k ((addPush p lb).drop k) tl).bind (runPushes h) := by
          rw [TL.replayFrom_addPush hk ((Grows_pushAll h).fits hf)]
      _ = TL.replayFrom k ((pushAll h (addPush p lb)).drop k) tl := ih hk' hf

/-! ### The first element of a built Timeline: the marks the sequence begins with -/

theorem head?_addPush (p : Bool × Nat) {l : List Nat} (h : 2 ≤ l.length) : (addPush p l).head? = l.head? := by
  obtain ⟨r, x, rfl⟩ := List.eq_nil_or_concat l |>.resolve_left (by rintro rfl; simp at h)
  have hr : r ≠ [] := by rintro rfl; simp at h
  rw [List.concat_eq_append, addPush_concat]
  split <;> simp [List.head?_append_of_ne_nil _ hr]

theorem head?_pushAll (h : List (Bool × Nat)) {l : List Nat} (hl : 2 ≤ l.length) : (pushAll h l).head? = l.head? := by
  induction h generalizing l with
  | nil => rfl
  | cons p h ih =>
    exact (ih (Nat.le_trans hl ((Refines_pushAs p).2 l).1)).trans (head?_addPush p hl)

/-- Marks grow a single first mark until the first space stands after it. -/
theorem head?_pushAll_singleton (h : List (Bool × Nat)) (x : Nat) :
    (pushAll h [x]).head? = some (x + (leadingMarks h).sum) := by
  induction h generalizing x with
  | nil => rfl
  | cons p h ih =>
    obtain ⟨space, d⟩ := p
    cases space
    · calc (pushAll h [x + d]).head?
        _ = some (x + d + (leadingMarks h).sum) := ih (x + d)
        _ = some (x + (leadingMarks ((false, d) :: h)).sum) := by simp [leadingMarks, Nat.add_assoc]
    · exact head?_pushAll h (l := [x, d]) (Nat.le_refl 2)

theorem TL.append_of_head_zero {lb : List Nat} (h : lb.head? = some 0) (tl : TL) :
    TL.append lb tl = TL.replayFrom 1 (lb.drop 1) tl := by
  match lb with
  | 0 :: rest => rfl

theorem TL.append_of_head_ne {lb : List Nat} (h : lb.head? ≠ some 0) (tl : TL) :
    TL.append lb tl = TL.replayFrom 0 (lb.drop 0) tl := by
  match lb with
  | [] => rfl
  | 0 :: rest => exact absurd rfl h
  | (n + 1) :: rest => rfl

/-- R107 on the store: a sequence that fits from the empty list, appended as the list it builds. -/
theorem TL.append_pushAll {h : List (Bool × Nat)} (hf : Fits (pushAll h []))
    (hmarks : leadingMarks h = [] ∨ 0 < (leadingMarks h).sum) (tl : TL) :
    TL.append (pushAll h []) tl = runPushes h tl := by
  match h with
  | [] => rfl
  | (true, d) :: h =>
    have hhead : (pushAll h [0, d]).head? = some 0 := head?_pushAll h (Nat.le_refl 2)
    calc TL.append (pushAll h [0, d]) tl
      _ = TL.replayFrom 1 ((pushAll h [0, d]).drop 1) tl := TL.append_of_head_zero hhead tl
      _ = (TL.replayFrom 1 [d] tl).bind (runPushes h) := (TL.replayFrom_pushAll (lb := [0, d]) (by simp) hf tl).symm
      _ = runPushes ((true, d) :: h) tl := by
        rw [runPushes_cons, TL.replayFrom_cons, bind_assoc]; rfl
  | (false, d) :: h =>
    have hsum : 0 < d + (leadingMarks h).sum := by simpa [leadingMarks] using hmarks
    have hhead : (pushAll h [d]).head? ≠ some 0 := by
      rw [head?_pushAll_singleton, ne_eq, Option.some.injEq]
      exact Nat.ne_of_gt hsum
    calc TL.append (pushAll h [d]) tl
      _ = TL.replayFrom 0 ((pushAll h [d]).drop 0) tl := TL.append_of_head_ne hhead tl
      _ = (TL.replayFrom 0 [d] tl).bind (runPushes h) := (TL.replayFrom_pushAll (lb := [d]) (by simp) hf tl).symm
      _ = runPushes ((false, d) :: h) tl := by
        rw [runPushes_cons, TL.replayFrom_cons, bind_assoc]; rfl

/-! ### From the Timeline to the state -/

theorem outcome_onTL_ok {f : TL → Except Fault TL} {s : State} {tl : TL} (h : f s.tl = .ok tl) :
    outcome (s.onTL f) = .next { s with tl := tl } := by
  rw [State.onTL, h, map_ok, outcome_ok, State.withTL]

theorem outcome_onTL_error {f : TL → Except Fault TL} {s : State} {e : Fault} (h : f s.tl = .error e) :
    outcome (s.onTL f) = .fault e := by
  rw [State.onTL, h, map_error, outcome_error]

/-- A Timeline operation that breaks no length bound can only stop at the duration. -/
theorem OverBound.durationOverflow {r : Except Fault TL} {l : List Nat} (h : OverBound r l) (hl : l.length ≤ 256) :
    r = .error .durationOverflow := by
  obtain ⟨-, hlt⟩ | ⟨e, -⟩ := h
  · exact absurd hl (Nat.not_le_of_lt hlt)
  · exact e

/-- R102, R108, R109: which fault `TL_MARK` reports. -/
theorem TL.mark_eq_error {d : Nat} {tl : TL} {l : List Nat} (h : Holds tl l) (hl : Fits l) (hn : ¬ Fits (addMark d l)) :
    TL.mark d tl = .error (if l.length = 256 then .timelineFull else .durationOverflow) := by
  have hlen := h.1
  split
  · next hfull => rw [TL.mark_of_even d (by omega), TL.push_full d (by omega)]
  · next hroom =>
    have hle : (addMark d l).length ≤ 256 := by
      have := hl.1
      rw [addMark_length]
      split <;> omega
    exact (TL.mark_stops h hl hn).durationOverflow hle

/-- The list of `TL_LOAD` is its literal (R101, R109; log 15). -/
theorem execTlLoad_faultsAtTheBound {seq : List Nat} (s : State) (hn : ¬ Fits seq) :
    FaultsAtTheBound (.tlLoad seq) s seq :=
  (TL.load_stops s.tl hn).imp (fun ⟨e, hx⟩ => ⟨outcome_onTL_error e, hx⟩) (fun ⟨e, hx⟩ => ⟨outcome_onTL_error e, hx⟩)

/-- The two headers with a mark and a space (R142, R164). -/
theorem Refines_mark_space (d e : Nat) :
    Refines (fun tl => (TL.mark d tl).bind (TL.space e)) (fun l => addSpace e (addMark d l)) :=
  (Refines_mark d).comp (Refines_space e) (Grows_addMark d) (Grows_addSpace e)

theorem execManNum_of_le {v w : Nat} (hw : w ≤ 64) (s : State) :
    execManNum v w s = outcome (s.onTL (TL.manNum 992 v w)) :=
  if_neg (Nat.not_lt_of_le hw)

theorem execPdBuf_of_le {bytes : List Byte} {w : Nat} (hw : w ≤ 8 * bytes.length) (s : State) :
    execPdBuf bytes w s = outcome (s.onTL (TL.pdBuf 560 bytes w)) :=
  if_neg (Nat.not_lt_of_le hw)

/-! ### The obligations -/

/-- Settles O12: the word by `encodePush_eq`, the effect by `TL.mark_holds`. -/
theorem tlMarkStoresOneElement : Obligations.TlMarkStoresOneElement := by
  refine ⟨fun d hd => ?_, fun s d l hl hf => ?_⟩
  · simp [encode, encodePush_eq false hd]
  · obtain ⟨tl, e, hh, hkeep⟩ := TL.mark_holds hl hf
    exact ⟨tl, outcome_onTL_ok e, hh, hkeep⟩

/-- Settles O13: the word by `encodePush_eq`, the effect by `TL.space_holds`. -/
theorem tlSpaceStoresItsElements : Obligations.TlSpaceStoresItsElements := by
  refine ⟨fun d hd => ?_, fun s d l hl hf => ?_⟩
  · simp [encode, encodePush_eq true hd]
  · obtain ⟨tl, e, hh, hempty, hkeep⟩ := TL.space_holds hl hf
    exact ⟨tl, outcome_onTL_ok e, hh, hempty, hkeep⟩

/-- Settles O14: a space creates no index 256, so only its duration can break a bound. -/
theorem storeBoundsFault : Obligations.StoreBoundsFault := by
  intro s d l hh hl
  constructor
  · intro hn
    exact outcome_onTL_error (TL.mark_eq_error hh hl hn)
  · intro hn
    exact outcome_onTL_error ((TL.space_stops hh hl hn).durationOverflow (addSpace_length_le d hl.1))

/-- Settles O15: every operation but the load refines its rule on lists, and so faults where the rule's list breaks a
bound. -/
theorem compositeOperationsFaultAtTheBounds : Obligations.CompositeOperationsFaultAtTheBounds := by
  intro s l hh hl
  refine ⟨fun seq hn => execTlLoad_faultsAtTheBound s hn,
    fun other hn => (Refines_append other).faultsAtTheBound rfl hh hl hn,
    fun b hn => ⟨(Refines_manBit 992 b).faultsAtTheBound rfl hh hl hn, ?man⟩,
    fun v w hw hn => (Refines_manNum 992 v w).faultsAtTheBound (execManNum_of_le hw s) hh hl hn,
    fun b hn => ⟨(Refines_pdBit 560 b).faultsAtTheBound rfl hh hl hn, ?pd⟩,
    fun bytes w hw hn => (Refines_pdBuf 560 bytes w).faultsAtTheBound (execPdBuf_of_le hw s) hh hl hn,
    fun hn => (Refines_mark_space 2976 2976).faultsAtTheBound rfl hh hl hn,
    fun hn => (Refines_mark 3968).faultsAtTheBound rfl hh hl hn,
    fun hn => (Refines_mark_space 9000 4500).faultsAtTheBound rfl hh hl hn,
    fun hn => (Refines_mark 560).faultsAtTheBound rfl hh hl hn⟩
  case man => cases b <;> exact (Refines_manBit 992 _).faultsAtTheBound rfl hh hl hn
  case pd => cases b <;> exact (Refines_pdBit 560 _).faultsAtTheBound rfl hh hl hn

/-- Settles O17, by what a read gives after the literal is written from element 0 on. -/
theorem tlLoadStoresVerbatim : Obligations.TlLoadStoresVerbatim := by
  intro s l hf
  refine ⟨_, outcome_onTL_ok (TL.load_eq_ok.2 ⟨hf, rfl⟩), ⟨rfl, fun i hi => ?_⟩, fun i hi => ?_⟩
  · rw [Memory.read_writeFrom, if_pos (by omega), Nat.sub_zero]
  · rw [Memory.read_writeFrom, if_neg (by omega)]

/-- Settles O18: `TL.append` refines `appendTo`. -/
theorem tlAppendReplays : Obligations.TlAppendReplays :=
  fun _ other _ hl hf => (Refines_append other).onTL hl hf

/-- Settles O19, by the walk of `TL.readFrom` along the list. -/
theorem tlReadGivesTheList : Obligations.TlReadGivesTheList := by
  intro s l hl
  show execTlRead s = _
  rw [execTlRead, TL.read_of_holds hl]

/-- Settles O20: the new list is `addMark d l` or `addSpace d l`. -/
theorem pushesConserveTime : Obligations.PushesConserveTime := by
  intro s t d l hl
  constructor
  · intro h
    obtain ⟨tl, hmark, rfl⟩ := State.onTL_eq_ok.1 (outcome_eq_next.1 h)
    obtain ⟨hm, hs⟩ := time_addMark d l
    refine ⟨addMark d l, TL.mark_holds_of_ok hl hmark, hm, hs, ?_⟩
    rw [addMark_length]
    split <;> simp
  · intro h
    obtain ⟨tl, hspace, rfl⟩ := State.onTL_eq_ok.1 (outcome_eq_next.1 h)
    obtain ⟨hm, hs⟩ := time_addSpace d l
    refine ⟨addSpace d l, TL.space_holds_of_ok hl hspace, hm, hs, fun hnil => hnil ▸ rfl, fun hne => ?_⟩
    rw [addSpace_length d hne]
    split <;> simp

/-- Settles O22: the built Timeline holds the list `pushAll h []`, which fits because the sequence answered. -/
theorem appendEqualsReplayedOperations : Obligations.AppendEqualsReplayedOperations := by
  intro s h b l lb _ hbuilt hb hmarks
  obtain ⟨hfits, hholds⟩ := (Refines_runPushes h).fits_holds_of_ok (l := []) (Holds_nil_iff.2 rfl)
    ⟨Nat.zero_le _, by simp⟩ hbuilt
  cases Holds_unique hb hholds
  have happend : TL.append (pushAll h []) = runPushes h := funext fun tl => TL.append_pushAll hfits hmarks tl
  show outcome (s.onTL (TL.append (pushAll h []))) = _
  rw [happend]

/-- Settles O16: each operation is one record update or none. -/
theorem clearAndEmptyOperations : Obligations.ClearAndEmptyOperations :=
  fun _ => ⟨rfl, rfl, rfl, rfl, rfl⟩

end Sys2Proof.Machine
end

section
/-! PROOFS. The bit encoder: each of its operations puts the bits of its rule on the Timeline, and what it puts on an empty
one reads back as those bits and lasts as long as they do. -/

namespace Sys2Proof.Machine

open Sys2Proof.Safety

/-! ### `MAN_BIT` and `PD_BIT` are the operations they name (R122, R126) -/

theorem exec_man_eq_manBit (b : Bool) (s : State) : exec (if b then .man1 else .man0) s = exec (.manBit b) s := by
  cases b <;> rfl

theorem exec_pd_eq_pdBit (b : Bool) (s : State) : exec (if b then .pd1 else .pd0) s = exec (.pdBit b) s := by
  cases b <;> rfl

/-! ### The total duration of encoded bits (R120 to R127) -/

theorem sum_eq_markTime_add_spaceTime (l : List Nat) : l.sum = markTime l + spaceTime l := by
  induction l using markTime.induct with
  | case1 => rfl
  | case2 x => simp [markTime, spaceTime]
  | case3 x y rest ih =>
    simp only [markTime, spaceTime, List.sum_cons]
    omega

theorem sum_addMark (d : Nat) (l : List Nat) : (addMark d l).sum = l.sum + d := by
  obtain ⟨hmark, hspace⟩ := time_addMark d l
  simp only [sum_eq_markTime_add_spaceTime, hmark, hspace]
  omega

theorem sum_addSpace (d : Nat) (l : List Nat) : (addSpace d l).sum = l.sum + d := by
  obtain ⟨hmark, hspace⟩ := time_addSpace d l
  simp only [sum_eq_markTime_add_spaceTime, hmark, hspace]
  omega

/-- Either Manchester bit lasts two units. -/
theorem sum_manBit (u : Nat) (l : List Nat) (b : Bool) : (Safety.manBit u l b).sum = l.sum + 2 * u := by
  cases b <;> simp [Safety.manBit, sum_addMark, sum_addSpace] <;> omega

/-- A pulse-distance 0 lasts two units, a 1 four. -/
theorem sum_pdBit (u : Nat) (l : List Nat) (b : Bool) :
    (Safety.pdBit u l b).sum = l.sum + if b then 4 * u else 2 * u := by
  cases b <;> simp [Safety.pdBit, sum_addMark, sum_addSpace] <;> omega

theorem sum_foldl_manBit (u : Nat) (bs : List Bool) (l : List Nat) :
    (bs.foldl (Safety.manBit u) l).sum = l.sum + 2 * bs.length * u := by
  induction bs generalizing l with
  | nil => simp
  | cons b bs ih =>
    rw [List.foldl_cons, ih, sum_manBit, List.length_cons]
    ring

theorem sum_foldl_pdBit (u : Nat) (bs : List Bool) (l : List Nat) :
    (bs.foldl (Safety.pdBit u) l).sum = l.sum + u * (2 * bs.length + 2 * bs.countP id) := by
  induction bs generalizing l with
  | nil => simp
  | cons b bs ih =>
    rw [List.foldl_cons, ih, sum_pdBit, List.length_cons, List.countP_cons]
    cases b
    · simp only [Bool.false_eq_true, if_false, id]; ring
    · simp only [if_true, id]; ring

/-! ### Manchester bits on an empty Timeline (R123) -/

/-- A first bit falls on an empty Timeline as on a mark of no length: a 0 grows it to a unit, a 1 leaves it (R103). -/
theorem manBit_nil (u : Nat) (b : Bool) : Safety.manBit u [] b = Safety.manBit u [0] b := by
  cases b <;> simp [Safety.manBit, addMark, addSpace, bumpLast]

theorem foldl_manBit_nil (u : Nat) (b : Bool) (bs : List Bool) :
    (b :: bs).foldl (Safety.manBit u) [] = manRuns u 0 true (b :: bs) :=
  calc (b :: bs).foldl (Safety.manBit u) []
    _ = (b :: bs).foldl (Safety.manBit u) [0] := by rw [List.foldl_cons, manBit_nil, ← List.foldl_cons]
    _ = manRuns u 0 true (b :: bs) := foldl_manBit u (b :: bs) [] 0 true rfl

/-- The mark of no length has no halves, so the halves are those of the bits. -/
theorem halves_foldl_manBit_nil {u : Nat} (hu : 0 < u) (bs : List Bool) :
    halves u 0 (bs.foldl (Safety.manBit u) []) = bs.flatMap bitHalves := by
  cases bs with
  | nil => rfl
  | cons b bs =>
    rw [foldl_manBit_nil]
    simpa using halves_manRuns hu (b :: bs) 0 0 true rfl

/-- Two halves merge at most. -/
theorem foldl_manBit_nil_le (u : Nat) (bs : List Bool) : ∀ x ∈ bs.foldl (Safety.manBit u) [], x ≤ 2 * u := by
  cases bs with
  | nil => simp
  | cons b bs =>
    have htail := manRuns_le u u b bs (Nat.le_refl u)
    rw [foldl_manBit_nil, manRuns]
    intro x hx
    split at hx
    case isTrue hone =>
      obtain rfl | rfl | hx := by simpa using hx
      · exact Nat.zero_le _
      · omega
      · have := htail x hx; omega
    case isFalse hzero =>
      obtain rfl | hx := by simpa using hx
      · omega
      · have := htail x hx; omega

theorem foldl_manBit_nil_length_le (u : Nat) (bs : List Bool) :
    (bs.foldl (Safety.manBit u) []).length ≤ 1 + 2 * bs.length := by
  cases bs with
  | nil => simp
  | cons b bs =>
    rw [foldl_manBit_nil]
    exact manRuns_length u 0 true (b :: bs)

/-- From empty, every width of the contract fits the store. -/
theorem Fits_manBits {bs : List Bool} (h : bs.length ≤ 64) : Fits (bs.foldl (Safety.manBit 992) []) := by
  constructor
  · have := foldl_manBit_nil_length_le 992 bs; omega
  · intro x hx
    have := foldl_manBit_nil_le 992 bs x hx
    omega

/-! ### Pulse-distance bits on an empty Timeline (R127) -/

theorem foldl_pdBit_nil (bs : List Bool) : bs.foldl (Safety.pdBit 560) [] = bs.flatMap greenPair := by
  rw [foldl_pdBit 560 bs [] rfl, List.nil_append, greenPair_eq]

/-- The decoder of R129 reads the pairs of bits as the bits. -/
theorem decodePairs_greenPair (bs : List Bool) : decodePairs 560 (bs.flatMap greenPair) = some bs := by
  induction bs with
  | nil => rfl
  | cons b bs ih =>
    cases b <;> simp [greenPair, decodePairs, ih]

/-- From empty, 128 bits fill the store. -/
theorem Fits_greenPairs {bs : List Bool} (h : bs.length ≤ 128) : Fits (bs.flatMap greenPair) := by
  constructor
  · rw [length_flatMap_greenPair]; omega
  · intro x hx
    have := mem_flatMap_greenPair hx
    omega

/-! ### The obligations -/

/-- Settles O28: the list is that of `ManNumEncodesMostSignificantFirst` from empty; its halves are those of the bits,
whichever have merged. -/
theorem manchesterDecodesBack : Obligations.ManchesterDecodesBack := by
  intro s v w hw hempty
  have hfits : Fits ((numBits v w).foldl (Safety.manBit 992) []) := Fits_manBits (by simpa using hw)
  obtain ⟨tl, he, hh, -⟩ := (Refines_manNum 992 v w).onTL (Holds_nil_iff.2 hempty) hfits
  refine ⟨_, _, (execManNum_of_le hw s).trans he, hh, ?_, ?_⟩
  · rw [halves_foldl_manBit_nil (by decide), decodeHalves_bitHalves]
  · rw [sum_foldl_manBit, numBits_length, List.sum_nil, Nat.zero_add]

/-- Settles O29: from empty no two pushes of `PD_BUF` merge, so each bit is one pair. -/
theorem pulseDistanceDecodesBack : Obligations.PulseDistanceDecodesBack := by
  intro s bytes w hw hroom hempty
  have hlist := foldl_pdBit_nil (bufBits bytes w)
  have hfits : Fits ((bufBits bytes w).foldl (Safety.pdBit 560) []) := hlist ▸ Fits_greenPairs (by simpa using hroom)
  obtain ⟨tl, he, hh, -⟩ := (Refines_pdBuf 560 bytes w).onTL (Holds_nil_iff.2 hempty) hfits
  refine ⟨_, _, (execPdBuf_of_le hw s).trans he, hh, ?_, ?_, ?_⟩
  · rw [hlist, length_flatMap_greenPair, bufBits_length]
  · rw [hlist, decodePairs_greenPair]
  · rw [sum_foldl_pdBit, bufBits_length, List.sum_nil, Nat.zero_add]

/-- Settles O23: `TL.manBit` refines its rule on lists. -/
theorem manchesterBitOperations : Obligations.ManchesterBitOperations := by
  refine ⟨rfl, rfl, fun s b l hl hf => ?_⟩
  obtain ⟨tl, he, hh, hkeep⟩ := (Refines_manBit 992 b).onTL hl hf
  exact ⟨tl, he, (exec_man_eq_manBit b s).trans he, hh, hkeep⟩

/-- Settles O24: `TL.pdBit` refines its rule on lists. -/
theorem pulseDistanceBitOperations : Obligations.PulseDistanceBitOperations := by
  refine ⟨rfl, rfl, fun s b l hl hf => ?_⟩
  obtain ⟨tl, he, hh, hkeep⟩ := (Refines_pdBit 560 b).onTL hl hf
  exact ⟨tl, he, (exec_pd_eq_pdBit b s).trans he, hh, hkeep⟩

/-- Settles O25: a width of the contract runs `TL.manNum`, which refines the fold of its bits. -/
theorem manNumEncodesMostSignificantFirst : Obligations.ManNumEncodesMostSignificantFirst := by
  intro s v w l hw hl hf
  obtain ⟨tl, he, hh, hkeep⟩ := (Refines_manNum 992 v w).onTL hl hf
  exact ⟨tl, (execManNum_of_le hw s).trans he, hh, hkeep⟩

/-- Settles O26: a width of the contract runs `TL.pdBuf`, which refines the fold of the stream. -/
theorem pdBufEncodesTheStream : Obligations.PdBufEncodesTheStream := by
  intro s bytes w l hw hl hf
  obtain ⟨tl, he, hh, hkeep⟩ := (Refines_pdBuf 560 bytes w).onTL hl hf
  exact ⟨tl, (execPdBuf_of_le hw s).trans he, hh, hkeep⟩

/-- Settles O27: each width is tested before anything is pushed. -/
theorem widthsOutsideTheContractAreRefused : Obligations.WidthsOutsideTheContractAreRefused :=
  fun _ _ _ _ => ⟨fun hw => if_pos hw, fun hw => if_pos hw⟩

end Sys2Proof.Machine
end

section
/-! PROOFS. The Orange framer: the code word, the header and the tail, the packet, and the shape of the frame. -/

namespace Sys2Proof.Machine

open Sys2Proof.Safety

/-! ### The fields of the Orange code word (R74 to R77) -/

/-- R75: the mode codes of the five named modes, whatever is drawn. -/
theorem orangeMode_named (m draw : BitVec 3) :
    (m = 0 → (orangeMode m draw).toNat = 0b001) ∧ (m = 1 → (orangeMode m draw).toNat = 0b010) ∧
    (m = 2 → (orangeMode m draw).toNat = 0b101) ∧ (m = 3 → (orangeMode m draw).toNat = 0b100) ∧
    (m = 4 → (orangeMode m draw).toNat = 0b011) := by
  refine ⟨?cool, ?heat, ?fan, ?dry, ?auto⟩ <;> rintro rfl <;> rfl

/-- R77: the remainder fits its four bits. -/
theorem temp15_toNat_eq (t : BitVec 8) : (temp15 t).toNat = (((t.toNat : Int) - 15) % 16).toNat := by
  rw [temp15, BitVec.toNat_ofNat]
  omega

/-- R74: the three lowest bits of every code word, bit 2 first. -/
theorem numBits_orangeWord_low (c : Cfg) (m : BitVec 3) : numBits (orangeWord c m).toNat 3 = [false, true, false] := by
  have hlow : (orangeWord c m).toNat % 8 = 2 := by rw [orangeWord_toNat]; omega
  simp [numBits, List.range_succ, Nat.testBit_eq_decide_div_mod_eq]
  omega

/-! ### The bits of a number, from either end (R123) -/

theorem numBits_cons (v w : Nat) : numBits v (w + 1) = v.testBit w :: numBits v w := by
  rw [← msbFirst_eq, ← msbFirst_eq, msbFirst]

/-- The lowest `k` bits come last. -/
theorem numBits_add (v w k : Nat) : numBits v (w + k) = numBits (v / 2 ^ k) w ++ numBits v k := by
  induction w with
  | zero => simp [numBits]
  | succ w ih =>
    rw [Nat.add_right_comm, numBits_cons, numBits_cons, ih, List.cons_append, Nat.testBit_div_two_pow]

/-! ### Neighbouring bits that differ (R153) -/

/-- How many of the bits differ from the one before, the first from `m`. -/
def changes : Bool → List Bool → Nat
  | _, [] => 0
  | m, b :: bs => (b != m).toNat + changes b bs

/-- Each bit adds two elements, of which one merges where the bit differs from the one before. -/
theorem manRuns_length_add_changes (u x : Nat) (m : Bool) (bs : List Bool) :
    (manRuns u x m bs).length + changes m bs = 1 + 2 * bs.length := by
  induction bs generalizing x m with
  | nil => rfl
  | cons b bs ih =>
    have hrest := ih u b
    rw [manRuns, changes]
    split
    case isTrue hb => subst hb; simp; omega
    case isFalse hb => simp [bne_iff_ne.2 hb]; omega

theorem changes_numBits (m : Bool) (v w : Nat) :
    changes m (numBits v (w + 1)) =
      (v.testBit w != m).toNat + (List.range w).countP (fun i => v.testBit i != v.testBit (i + 1)) := by
  induction w generalizing m with
  | zero => simp [numBits, changes]
  | succ w ih =>
    rw [numBits_cons, changes, ih, List.range_succ, List.countP_append, List.countP_singleton]
    cases v.testBit w != v.testBit (w + 1) <;> simp [Nat.add_comm]

/-! ### The elements of Manchester bits -/

/-- Behind a bit, the elements are those that a last element of one unit gives. -/
theorem manRuns_append (u x : Nat) (m b : Bool) (bs cs : List Bool) :
    ∃ q, manRuns u x m (bs ++ b :: cs) = q ++ manRuns u u b cs := by
  induction bs generalizing x m with
  | nil =>
    rw [List.nil_append, manRuns]
    split
    · exact ⟨[x, u], rfl⟩
    · exact ⟨[x + u], rfl⟩
  | cons d bs ih =>
    obtain ⟨q, hq⟩ := ih u d
    rw [List.cons_append, manRuns, hq]
    split
    · exact ⟨x :: u :: q, rfl⟩
    · exact ⟨(x + u) :: q, rfl⟩

theorem mem_manRuns {u x y : Nat} {m : Bool} {bs : List Bool} (h : y ∈ manRuns u x m bs) :
    (y = x ∨ y = x + u) ∨ y = u ∨ y = u + u := by
  induction bs generalizing x m with
  | nil => exact .inl (.inl (List.mem_singleton.1 h))
  | cons b bs ih =>
    have hrest : y ∈ manRuns u u b bs → y = u ∨ y = u + u := fun hy => (ih hy).elim id id
    rw [manRuns] at h
    split at h
    case isTrue =>
      obtain rfl | rfl | hy := by simpa using h
      · exact .inl (.inl rfl)
      · exact .inr (.inl rfl)
      · exact .inr (hrest hy)
    case isFalse =>
      obtain rfl | hy := List.mem_cons.1 h
      · exact .inl (.inr rfl)
      · exact .inr (hrest hy)

/-! ### The Orange block and frame (R145, R153) -/

/-- R153 (a). -/
theorem orangeBlock_length_add (code : BitVec 34) :
    (orangeBlock code).length + transitions code + (code.getLsbD 33).toNat = 70 := by
  have hlen := manRuns_length_add_changes 992 2976 false (numBits code.toNat 34)
  have hchanges : changes false (numBits code.toNat 34) = (code.getLsbD 33).toNat + transitions code := by
    rw [changes_numBits, Bool.bne_false]
    rfl
  rw [numBits_length] at hlen
  rw [orangeBlock, List.length_cons]
  omega

/-- A repetition lasts the header's mark and space and two units for each of the 34 bits. -/
theorem sum_addOrangeBlock (code : BitVec 34) (l : List Nat) :
    (addOrangeBlock code l).sum = l.sum + 2976 + 2976 + 2 * 34 * 992 := by
  rw [addOrangeBlock, sum_foldl_manBit, sum_addSpace, sum_addMark, numBits_length]

/-- R153 (b). -/
theorem sum_orangeFrame (code : BitVec 34) : (orangeFrame code).sum = 224192 := by
  rw [orangeFrame, sum_addMark, sum_addOrangeBlock, sum_addOrangeBlock, sum_addOrangeBlock, List.sum_nil]

/-- R153 (c). -/
theorem mem_orangeBlock {code : BitVec 34} {x : Nat} (h : x ∈ orangeBlock code) :
    x = 992 ∨ x = 1984 ∨ x = 2976 ∨ x = 3968 := by
  obtain rfl | hruns := List.mem_cons.1 h
  · simp
  · have := mem_manRuns hruns
    omega

/-- R153 (d): the header's space takes the first half of a first bit 1. -/
theorem orangeBlock_one (code : BitVec 34) :
    (orangeBlock code)[1]? = some (if code.getLsbD 33 then 3968 else 2976) := by
  rw [orangeBlock, numBits_cons, BitVec.testBit_toNat, manRuns]
  cases code.getLsbD 33 <;> simp

/-- A code that ends in 0, 1, 0 ends its block in two merged elements and one of a unit (R153 (d)). -/
theorem orangeBlock_tail {code : BitVec 34} (h : numBits code.toNat 3 = [false, true, false]) :
    ∃ q, orangeBlock code = q ++ [1984, 1984, 992] := by
  obtain ⟨q, hq⟩ := manRuns_append 992 2976 false false (numBits (code.toNat / 2 ^ 3) 31) [true, false]
  exact ⟨2976 :: q, by rw [orangeBlock, numBits_add _ 31 3, h, hq]; rfl⟩

/-! ### The obligations -/

/-- Settles O30: the number is `orangeWord_toNat`; the fan code is the input code (R76). -/
theorem orangeCodeIsTheLayout : Obligations.OrangeCodeIsTheLayout := by
  intro s
  obtain ⟨hcool, hheat, hfan, hdry, hauto⟩ := orangeMode_named s.cfg.mode (Config.any3 s.draws)
  refine ⟨s.assembleOrange, _, rfl, rfl, BitVec.isLt _, hcool, hheat, hfan, hdry, hauto, ?_⟩
  rw [State.assembleOrange_codeO, orangeWord_toNat, orangeFan_eq, temp15_toNat_eq]

/-- Settles O31: the header refines its rule on lists; the tail is one mark, which leaves all elements but one. -/
theorem orangeHeaderAndTail : Obligations.OrangeHeaderAndTail := by
  intro s l hl
  refine ⟨fun hf => Refines_oCodeHeader.onTL hl hf, fun hf => ?_⟩
  obtain ⟨tl, e, hh, hkeep⟩ := TL.mark_holds hl hf
  exact ⟨tl, outcome_onTL_ok (f := TL.oPktTail) e, hh, hkeep⟩

/-- Settles O32, by what the packet's expansion puts on an empty Timeline. -/
theorem orangePacketBuildsTheFrame : Obligations.OrangePacketBuildsTheFrame := by
  intro s hempty
  obtain ⟨tl, e, hh, hkeep⟩ := TL.orangePacket_holds s.codeO hempty
  have hpack : s.packOrange = .ok ((s.withTL tl).leaveLoops .orange) := by
    rw [State.packOrange, State.onTL, e, map_ok, map_ok]
  exact ⟨_, outcome_eq_next.2 hpack, hh, rfl, hkeep⟩

/-- Settles O33: every code word ends in 0, 1, 0, so the three blocks stay apart; a block is shorter by one for each
bit that differs from the one before. -/
theorem orangeFrameShape : Obligations.OrangeFrameShape := by
  intro s c hp
  obtain ⟨t, he, hh, hcode, -⟩ := exec_encOrange_idle hp c
  have hzero : t.codeO.getLsbD 0 = false := hcode ▸ orangeWord_getLsbD_zero c _
  have hframe := orangeFrame_eq_blocks hzero
  obtain ⟨q, hq⟩ := orangeBlock_tail (hcode ▸ numBits_orangeWord_low c _)
  refine ⟨t, orangeBlock t.codeO, he, hframe ▸ hh, orangeBlock_length_add _, hframe ▸ sum_orangeFrame _,
    fun _ hx => mem_orangeBlock hx, rfl, orangeBlock_one _, ?_⟩
  simp [hq]

end Sys2Proof.Machine
end

section
/-! PROOFS. The Green framer: the byte operations, the layout of the buffer, the header and the tail, the packet, and the
shape of the frame. -/

namespace Sys2Proof.Machine

open Sys2Proof.Safety

/-! ### Bit reversal (R162, R163) -/

theorem bitRev8_bitRev8 (b : Byte) : bitRev8 (bitRev8 b) = b := by
  refine BitVec.eq_of_getLsbD_eq fun i hi => ?_
  rw [bitRev8_getLsbD _ hi, bitRev8_getLsbD b (by omega)]
  congr 1
  omega

/-- Reversing the bits of every byte keeps the order of the bytes. -/
theorem toList_map_bitRev8_getLsbD (g : GBuf) (k : Nat) {i : Nat} (hi : i < 8) :
    ((g.map bitRev8).toList.getD k 0).getLsbD i = (g.toList.getD k 0).getLsbD (7 - i) := by
  have hzero : bitRev8 0 = 0 := by decide
  have hbyte := List.getD_map g.toList 0 bitRev8 (n := k)
  rw [hzero] at hbyte
  rw [toList_map, hbyte, bitRev8_getLsbD _ hi]

/-! ### The checksum (R161) -/

/-- The truncated sum is the sum of the numbers modulo 256. -/
theorem checksum_toNat (g : GBuf) : (checksum g).toNat = ((g.toList.take 12).map BitVec.toNat).sum % 256 := by
  simp only [checksum, GBuf.toList, BitVec.toNat_add, List.take, List.map, List.sum_cons, List.sum_nil]
  omega

/-! ### The fields of the Green buffer (R78 to R82) -/

/-- R79: the mode codes of the five named modes, whatever is drawn. -/
theorem greenMode_named (m draw : BitVec 3) :
    (m = 0 → (greenMode m draw).toNat = 0b001) ∧ (m = 1 → (greenMode m draw).toNat = 0b100) ∧
    (m = 2 → (greenMode m draw).toNat = 0b110) ∧ (m = 3 → (greenMode m draw).toNat = 0b010) ∧
    (m = 4 → (greenMode m draw).toNat = 0b000) := by
  refine ⟨?cool, ?heat, ?fan, ?dry, ?auto⟩ <;> rintro rfl <;> rfl

/-- R80: the fan codes. -/
theorem greenFan_codes (f : BitVec 2) :
    (f = 0 → (greenFan f).toNat = 0b011) ∧ (f = 1 → (greenFan f).toNat = 0b010) ∧
    (f = 2 → (greenFan f).toNat = 0b001) ∧ (f = 3 → (greenFan f).toNat = 0b101) := by
  refine ⟨?low, ?medium, ?high, ?auto⟩ <;> rintro rfl <;> rfl

theorem nvswing_toNat (swing : Bool) : (nvswing swing).toNat = if swing then 0 else 7 := by
  cases swing <;> rfl

/-- Byte 1 as a number, for a valid temperature (R78, R81, R82). -/
theorem greenByte1_toNat (k : Config.GreenTlow) {c : Cfg} (draw : Byte) (h : TempInRange c) :
    (greenByte1 k c draw).toNat = (c.temp.toNat / 8 - 1) * 64 + (if k = .mod8 then c.temp.toNat % 8 else 0) * 8 +
      (if c.swing then 0 else 7) := by
  rw [greenByte1_of_inRange k draw h, toNat_concat, toNat_concat, thigh_toNat h.2, tlow_toNat, nvswing_toNat]
  omega

theorem greenFill_b4_toNat (k : Config.GreenTlow) (c : Cfg) (m3 : BitVec 3) (b1 : Byte) (old : GBuf) :
    (greenFill k c m3 b1 old).b4.toNat = (greenFan c.fan).toNat * 32 :=
  toNat_concat (greenFan c.fan) 0#5

theorem greenFill_b6_toNat (k : Config.GreenTlow) (c : Cfg) (m3 : BitVec 3) (b1 : Byte) (old : GBuf) :
    (greenFill k c m3 b1 old).b6.toNat = (greenMode c.mode m3).toNat * 32 + c.sleep.toNat * 4 := by
  simp only [greenFill, toNat_concat, BitVec.toNat_ofNat, BitVec.toNat_ofBool]
  omega

/-! ### The elements of pulse-distance bits -/

/-- Two elements for each bit. -/
theorem take_flatMap_greenPair (n : Nat) (bs : List Bool) :
    (bs.flatMap greenPair).take (2 * n) = (bs.take n).flatMap greenPair := by
  induction bs generalizing n with
  | nil => simp
  | cons b bs ih =>
    cases n with
    | zero => rfl
    | succ n => simpa [greenPair, Nat.mul_add] using ih n

/-- The mark and the space of bit `j` are elements `2 * j` and `2 * j + 1`. -/
theorem flatMap_greenPair_getElem? {bs : List Bool} {j : Nat} {b : Bool} (h : bs[j]? = some b) :
    (bs.flatMap greenPair)[2 * j]? = some 560 ∧
      (bs.flatMap greenPair)[2 * j + 1]? = some (if b then 1680 else 560) := by
  induction bs generalizing j with
  | nil => simp at h
  | cons a bs ih =>
    cases j with
    | zero =>
      obtain rfl : a = b := by simpa using h
      exact ⟨rfl, rfl⟩
    | succ j => simpa [greenPair, Nat.mul_add] using ih (j := j) (by simpa using h)

theorem sum_flatMap_greenPair (bs : List Bool) :
    (bs.flatMap greenPair).sum = 1120 * bs.length + 1120 * bs.countP id := by
  rw [← foldl_pdBit_nil, sum_foldl_pdBit, List.sum_nil]
  ring

/-! ### The Green frame (R55, R172) -/

theorem wireBits_getElem? (g : GBuf) {j : Nat} (hj : j < 104) :
    (wireBits g)[j]? = some ((g.toList.getD (j / 8) 0).getLsbD (j % 8)) := by
  simp [wireBits, hj]

theorem length_wirePairs (g : GBuf) : ((wireBits g).flatMap greenPair).length = 208 := by
  rw [length_flatMap_greenPair, wireBits_length]

/-- Behind the header's two elements stand the pairs of the wire bits. -/
theorem greenFrame_getElem?_add_two (g : GBuf) {i : Nat} (hi : i < 208) :
    (greenFrame g)[i + 2]? = ((wireBits g).flatMap greenPair)[i]? := by
  rw [greenFrame, List.append_assoc, List.getElem?_append_right (Nat.le_add_left 2 i), List.getElem?_append_left]
  · rfl
  · rw [length_wirePairs]
    exact hi

/-- R172 (b): the mark and the space of wire bit `j`. -/
theorem greenFrame_pair (g : GBuf) {j : Nat} (hj : j < 104) :
    (greenFrame g)[2 + 2 * j]? = some 560 ∧
      (greenFrame g)[3 + 2 * j]? = some (if (g.toList.getD (j / 8) 0).getLsbD (j % 8) then 1680 else 560) := by
  obtain ⟨hmark, hspace⟩ := flatMap_greenPair_getElem? (wireBits_getElem? g hj)
  rw [Nat.add_comm 2, show 3 + 2 * j = 2 * j + 1 + 2 by omega, greenFrame_getElem?_add_two g (by omega),
    greenFrame_getElem?_add_two g (by omega)]
  exact ⟨hmark, hspace⟩

theorem greenFrame_last (g : GBuf) : (greenFrame g)[210]? = some 560 := by
  have hlen : ([9000, 4500] ++ (wireBits g).flatMap greenPair).length = 210 := by
    rw [List.length_append, length_wirePairs]
    rfl
  rw [greenFrame, ← hlen, List.getElem?_concat_length]

/-- R172 (c). -/
theorem mem_greenFrame {g : GBuf} {x : Nat} (h : x ∈ greenFrame g) : x = 560 ∨ x = 1680 ∨ x = 4500 ∨ x = 9000 := by
  rw [greenFrame, List.mem_append, List.mem_append] at h
  obtain (hhead | hbits) | htail := h
  · simp at hhead
    omega
  · have := mem_flatMap_greenPair hbits
    omega
  · simp at htail
    omega

/-- R172 (d). -/
theorem sum_greenFrame (g : GBuf) : (greenFrame g).sum = 130540 + 1120 * ones g := by
  rw [greenFrame, List.sum_append, List.sum_append, sum_flatMap_greenPair, wireBits_length, ← ones]
  simp only [List.sum_cons, List.sum_nil]
  omega

/-- The wire bits begin with byte 0, lowest bit first (R55). -/
theorem wireBits_take_eight (g : GBuf) : (wireBits g).take 8 = (List.range 8).map g.b0.getLsbD := by
  rw [wireBits, ← List.map_take, List.take_range]
  rfl

theorem greenFrame_take (g : GBuf) {n : Nat} (hn : n ≤ 104) :
    (greenFrame g).take (2 + 2 * n) = [9000, 4500] ++ ((wireBits g).take n).flatMap greenPair := by
  rw [greenFrame, List.append_assoc, show 2 + 2 * n = ([9000, 4500] : List Nat).length + 2 * n from rfl,
    List.take_length_add_append, List.take_append_of_le_length (by rw [length_wirePairs]; omega), take_flatMap_greenPair]

/-- R172 (e): byte 0 is the same in every frame, and so are the eight pairs that carry it. -/
theorem greenFrame_take_of_b0 {g : GBuf} (h : g.b0 = 0xC3) : (greenFrame g).take 18 =
    [9000, 4500, 560, 1680, 560, 1680, 560, 560, 560, 560, 560, 560, 560, 560, 560, 1680, 560, 1680] := by
  rw [show 18 = 2 + 2 * 8 from rfl, greenFrame_take g (by omega), wireBits_take_eight, h]
  rfl

/-! ### The obligations -/

/-- Settles O35, field by field. -/
theorem greenBytesAreTheLayout : Obligations.GreenBytesAreTheLayout := by
  intro s
  obtain ⟨hlow, hmedium, hhigh, hfanAuto⟩ := greenFan_codes s.cfg.fan
  obtain ⟨hcool, hheat, hfan, hdry, hauto⟩ := greenMode_named s.cfg.mode (Config.any3 s.draws)
  exact ⟨s.assembleGreen, _, _, rfl, rfl, rfl, greenByte1_toNat _ _, rfl, rfl, greenFill_b4_toNat .., rfl,
    greenFill_b6_toNat .., rfl, rfl, rfl, rfl, rfl, rfl, hlow, hmedium, hhigh, hfanAuto, BitVec.isLt _, hcool, hheat, hfan,
    hdry, hauto⟩

/-- Settles O39, by `checksum_toNat`. -/
theorem greenChecksumIsTheSum : Obligations.GreenChecksumIsTheSum :=
  fun s => ⟨checksum s.gbuf, rfl, checksum_toNat s.gbuf⟩

/-- Settles O42: the header refines its rule on lists; the tail is one mark, which leaves all elements but one. -/
theorem greenHeaderAndTail : Obligations.GreenHeaderAndTail := by
  intro s l hl
  refine ⟨fun hf => Refines_gPktHeader.onTL hl hf, fun hf => ?_⟩
  obtain ⟨tl, e, hh, hkeep⟩ := TL.mark_holds hl hf
  exact ⟨tl, outcome_onTL_ok (f := TL.gPktTail) e, hh, hkeep⟩

/-- Settles O43, by what the packet's expansion puts on an empty Timeline. -/
theorem greenPacketBuildsTheFrame : Obligations.GreenPacketBuildsTheFrame := by
  intro s hempty
  obtain ⟨tl, e, hh, hkeep⟩ := TL.greenPacket_holds s.rbuf hempty
  have hpack : s.packGreen = .ok ((s.withTL tl).leaveLoops .green) := by
    rw [State.packGreen, State.onTL, e, map_ok, map_ok]
  exact ⟨_, outcome_eq_next.2 hpack, hh, rfl, hkeep⟩

/-- Settles O44: the frame is `greenFrame` of the buffer, whose byte 0 is a constant. -/
theorem greenFrameShape : Obligations.GreenFrameShape := by
  intro s c hp
  obtain ⟨t, he, hh, hg, hr, -⟩ := exec_encGreen_idle hp c s.gbuf
  have hb0 : t.gbuf.b0 = 0xC3 := by rw [hg]; rfl
  refine ⟨t, greenFrame t.gbuf, he, hh, greenFrame_length _, rfl, rfl, greenFrame_last _, fun j hj => ?_,
    fun _ hx => mem_greenFrame hx, greenFrame_take_of_b0 hb0, sum_greenFrame _⟩
  obtain ⟨hmark, hspace⟩ := greenFrame_pair t.gbuf hj
  refine ⟨hmark, hspace, ?_⟩
  rw [hr, toList_map_bitRev8_getLsbD _ _ (by omega)]
  congr 1
  omega

/-- Settles O45: the checksum byte is wire bits 96 to 103. -/
theorem greenChecksumIsSentReversed : Obligations.GreenChecksumIsSentReversed := by
  intro s c hp
  obtain ⟨t, he, ⟨hlen, hread⟩, hg, hr, -⟩ := exec_encGreen_idle hp c s.gbuf
  have hsum : t.gbuf.b12 = checksum t.gbuf := by rw [hg]; rfl
  have hrev : ∀ i, i < 8 → t.rbuf.b12.getLsbD i = t.gbuf.b12.getLsbD (7 - i) := fun i hi => by
    rw [hr, GBuf.map_b12, bitRev8_getLsbD _ hi]
  rw [greenFrame_length] at hlen hread
  refine ⟨t, he, fun i hi => ?_, hlen, fun i hi => ?_⟩
  · rw [hrev i hi, hsum, ← checksum_toNat, BitVec.testBit_toNat]
  · obtain ⟨hmark, hspace⟩ := greenFrame_pair t.gbuf (j := 96 + i) (by omega)
    have hbyte : (96 + i) / 8 = 12 := by omega
    have hbit : (96 + i) % 8 = 7 - (7 - i) := by omega
    rw [hrev _ (by omega), hread _ (by omega), hread _ (by omega)]
    rw [hbyte, hbit] at hspace
    constructor
    · rw [← hmark]; congr 1; omega
    · rw [show 195 + 2 * i = 3 + 2 * (96 + i) by omega]; exact hspace

/-- Settles O40, by `bitRev8_getLsbD` and `bitRev8_bitRev8`. -/
theorem bitReversalOfAByte : Obligations.BitReversalOfAByte :=
  fun _ b => ⟨bitRev8 b, rfl, fun _ hi => bitRev8_getLsbD b hi, by rw [exec, execBitrev8, bitRev8_bitRev8]⟩

/-- Settles O41, by what reversing every byte does to each. -/
theorem greenReverseKeepsByteOrder : Obligations.GreenReverseKeepsByteOrder :=
  fun s => ⟨s.gbuf.map bitRev8, rfl, fun k _ _ hi => toList_map_bitRev8_getLsbD s.gbuf k hi⟩

end Sys2Proof.Machine
end

section
/-! PROOFS. The command sequencer: what a command that is taken leaves to be drained, what is left once its frame is
transmitted, and that the block's ports and the host's `SEND` run it to that end. -/

namespace Sys2Proof.Machine

open Sys2Proof.Safety

/-! ### The command word (R71, R180) -/

theorem cwProto_eq_ite_div (w : CmdWord) : cwProto w = if w.toNat / 65536 = 1 then .green else .orange := by
  have hbit : w.getLsbD 16 = decide (w.toNat / 65536 = 1) := by
    rw [← BitVec.testBit_toNat, Nat.testBit_eq_decide_div_mod_eq, Nat.mod_eq_of_lt]
    have hw : w.toNat < 2 ^ 17 := w.isLt
    omega
  rw [cwProto, hbit]
  simp only [decide_eq_true_eq]

theorem cwCfg_eq_div (w : CmdWord) : cwCfg w =
    { power := w.getLsbD 15, mode := BitVec.ofNat 3 (w.toNat / 4096), fan := BitVec.ofNat 2 (w.toNat / 1024),
      temp := BitVec.ofNat 8 (w.toNat / 4), swing := w.getLsbD 1, sleep := w.getLsbD 0 } := by
  simp [cwCfg, BitVec.extractLsb', Nat.shiftRight_eq_div_pow]

theorem cwProto_orange {w : CmdWord} (h : w.getLsbD 16 = false) : cwProto w = .orange := by
  rw [cwProto, h]
  rfl

theorem cwProto_green {w : CmdWord} (h : w.getLsbD 16 = true) : cwProto w = .green := by
  rw [cwProto, h]
  rfl

/-- The carrier of a command word's protocol (R25). -/
theorem row_freq_cwProto (w : CmdWord) : (Config.row (cwProto w)).freq = if w.getLsbD 16 then 38 else 33 := by
  rw [cwProto]
  split <;> rfl

/-! ### Which commands are taken (R180; log 11) -/

/-- The block takes the command: it is idle, or has already accepted this one. -/
def Takes (p : Proto) (c : Cfg) (s : State) : Prop := s.phase = .idle ∨ (s.phase = .build ∧ s.proto = p ∧ s.cfg = c)

/-- Accepting a command that is already accepted changes nothing. -/
theorem State.accept_of_accepted {p : Proto} {c : Cfg} {s : State} (hp : s.phase = .build) (hproto : s.proto = p)
    (hcfg : s.cfg = c) : s.accept p c = s := by
  subst hproto hcfg
  rw [State.accept, State.latch_latched, ← hp]

theorem State.command_of_takes {p : Proto} {c : Cfg} {s : State} (h : Takes p c s) :
    s.command p c = (s.accept p c).build p := by
  obtain hidle | ⟨hbuild, hproto, hcfg⟩ := h
  · exact State.command_idle hidle p c
  · rw [State.accept_of_accepted hbuild hproto hcfg]
    simp [State.command, hbuild, hproto, hcfg]

/-- In `BUILD` a command that is not the latched one waits. -/
theorem State.command_other {p : Proto} {c : Cfg} {s : State} (hp : s.phase = .build) (h : ¬ (s.proto = p ∧ s.cfg = c)) :
    s.command p c = .ok s := by
  simp [State.command, hp, h]

theorem State.sendBoth_build {s : State} (hp : s.phase = .build) (c : Cfg) : s.sendBoth c = .ok s := by
  simp [State.sendBoth, hp]

theorem execCmdAccept_busy {s : State} (hp : s.phase ≠ .idle) (cw : CmdWord) : execCmdAccept cw s = .next s := by
  cases hs : s.phase with
  | idle => exact absurd hs hp
  | build => simp [execCmdAccept, hs]
  | drain => exact execCmdAccept_drain hs cw

/-! ### What a build leaves (R181, R182) -/

/-- The part of a build before the packet: the code registers of the latched protocol, from `CFG`. -/
def State.assemble (p : Proto) (s : State) : State :=
  match p with
  | .orange => s.assembleOrange
  | .green  => s.assembleGreen.sumGreen.reverseGreen

/-- The frame of a command presented to `s`: that of the code register its configuration gives. -/
def State.commandFrame (p : Proto) (c : Cfg) (s : State) : List Nat := frameOf ((s.accept p c).assemble p)

/-- The state a command is offered in, at the start of `DRAIN`, with its frame in the Timeline `tl`. -/
def State.built (p : Proto) (c : Cfg) (tl : TL) (s : State) : State :=
  { (s.accept p c).assemble p with
    phase := .drain, tl := tl, rptr := 0, freq := (Config.row p).freq, rep := repAfter p (s.draws + 1),
    bitIdx := Config.bitIdxLeft (s.draws + 1), draws := s.draws + 2 }

/-- The state after the command's last transfer (R185). -/
def State.sent (p : Proto) (c : Cfg) (tl : TL) (s : State) : State :=
  { s.built p c tl with
    phase := .idle, rptr := (s.commandFrame p c).length,
    sink := s.sink ++ frameBeats (s.commandFrame p c) (Config.row p).freq }

theorem commandFrame_pos (p : Proto) (c : Cfg) (s : State) : 0 < (s.commandFrame p c).length := frameOf_pos _

theorem commandFrame_length_le (p : Proto) (c : Cfg) (s : State) : (s.commandFrame p c).length ≤ 211 := by
  cases p with
  | orange =>
    obtain ⟨hlen, -⟩ := orangeFrame_bounds (orangeWord c (Config.any3 s.draws))
    exact hlen
  | green => exact (greenFrame_length _).le

theorem built_sink (p : Proto) (c : Cfg) (tl : TL) (s : State) : (s.built p c tl).sink = s.sink := by
  cases p <;> rfl

theorem built_stim (p : Proto) (c : Cfg) (tl : TL) (s : State) : (s.built p c tl).stim = s.stim := by
  cases p <;> rfl

theorem sent_proto (p : Proto) (c : Cfg) (tl : TL) (s : State) : (s.sent p c tl).proto = p := by
  cases p <;> rfl

theorem sent_cfg (p : Proto) (c : Cfg) (tl : TL) (s : State) : (s.sent p c tl).cfg = c := by
  cases p <;> rfl

theorem frameOf_sent (p : Proto) (c : Cfg) (tl : TL) (s : State) : frameOf (s.sent p c tl) = s.commandFrame p c := by
  cases p <;> rfl

/-- The frame of a command does not depend on what is presented after it. -/
theorem commandFrame_with_stim (p : Proto) (c : Cfg) (s : State) (rest : List Stimulus) :
    { s with stim := rest }.commandFrame p c = s.commandFrame p c := by
  cases p <;> rfl

theorem sent_with_stim (p : Proto) (c : Cfg) (tl : TL) (s : State) (rest rest' : List Stimulus) :
    { { s with stim := rest }.sent p c tl with stim := rest' } = { s.sent p c tl with stim := rest' } := by
  cases p <;> rfl

/-- The build of an accepted command always answers, with the whole frame in the store; elements above it stay. -/
theorem State.build_accept_eq (p : Proto) (c : Cfg) (s : State) :
    ∃ tl, (s.accept p c).build p = .ok (s.built p c tl) ∧ Holds tl (s.commandFrame p c) ∧
      ∀ i, tl.len ≤ i → Memory.read tl.mem i = Memory.read s.tl.mem i := by
  cases p with
  | orange =>
    obtain ⟨tl, e, hh, -, hkeep⟩ := (s.accept .orange c).buildOrange_eq
    exact ⟨tl, e, hh, hkeep⟩
  | green =>
    obtain ⟨tl, e, hh, -, hkeep⟩ := (s.accept .green c).buildGreen_eq
    exact ⟨tl, e, hh, hkeep⟩

theorem State.command_eq {p : Proto} {c : Cfg} {s : State} (h : Takes p c s) :
    ∃ tl, s.command p c = .ok (s.built p c tl) ∧ Holds tl (s.commandFrame p c) ∧
      ∀ i, tl.len ≤ i → Memory.read tl.mem i = Memory.read s.tl.mem i := by
  rw [State.command_of_takes h]
  exact State.build_accept_eq p c s

/-- The host's blocking call ends with the whole frame transmitted (R185). -/
theorem State.transmit_eq {s : State} (hp : s.phase = .idle) (p : Proto) (c : Cfg) :
    ∃ tl, s.transmit p c = .ok (s.sent p c tl) ∧ Holds tl (s.commandFrame p c) ∧
      ∀ i, tl.len ≤ i → Memory.read tl.mem i = Memory.read s.tl.mem i := by
  obtain ⟨tl, hcmd, hh, hkeep⟩ := State.command_eq (p := p) (c := c) (.inl hp)
  obtain ⟨m, hm⟩ := Nat.exists_eq_add_one.2 (commandFrame_pos p c s)
  have hbeats : State.beats (m + 1) (s.built p c tl) = .ok (s.sent p c tl) := by
    rw [State.beats_holds hh rfl (by rw [hm]; exact Nat.zero_add _), built_sink]
    rfl
  refine ⟨tl, ?_, hh, hkeep⟩
  calc s.transmit p c
    _ = State.beats tl.len (s.built p c tl) := by rw [State.transmit, hcmd]; rfl
    _ = .ok (s.sent p c tl) := by rw [hh.1, hm, hbeats]

/-! ### The edges of a command (R203, R238) -/

/-- An edge that presents a command word to an idle block (R180). -/
theorem step_accept {s : State} {p : Pins} {rest : List Stimulus} (hs : s.stim = .pins p :: rest)
    (hp : s.phase = .idle) (hrst : p.rst = false) (hvalid : p.cmdValid = true) :
    step s = .next ({ s with stim := rest }.accept (cwProto p.cw) (cwCfg p.cw)) := by
  have hf : fetch s = .run (.cmdAccept p.cw) := by simp [fetch, hs, edgeFetch, hrst, hp, hvalid]
  rw [step_of_fetch_run hf, State.popStim_of_stim hs]
  exact execCmdAccept_idle (s := { s with stim := rest }) hp p.cw

/-- An edge in `BUILD` (R181, R182; log 12). -/
theorem step_build {s : State} {p : Pins} {rest : List Stimulus} (hs : s.stim = .pins p :: rest)
    (hp : s.phase = .build) (hrst : p.rst = false) :
    step s = outcome ({ s with stim := rest }.build s.proto) := by
  have hf : fetch s = .run (commandOf s.proto s.cfg) := by simp [fetch, hs, edgeFetch, hrst, hp, latchedCommand]
  rw [step_of_fetch_run hf, State.popStim_of_stim hs, exec_commandOf]
  exact congrArg outcome (State.command_latched { s with stim := rest } hp)

/-- A command that is offered is transmitted by one edge per element at which the sink takes it (R62, R238). -/
theorem run_built {p : Proto} {c : Cfg} {tl : TL} {s : State} {pin : Pins} {rest : List Stimulus}
    (hh : Holds tl (s.commandFrame p c)) (hrst : pin.rst = false) (hready : pin.outReady = true)
    (hs : s.stim = List.replicate (s.commandFrame p c).length (.pins pin) ++ rest) :
    Host.Core.run core (s.commandFrame p c).length (s.built p c tl) = .next { s.sent p c tl with stim := rest } := by
  obtain ⟨m, hm⟩ := Nat.exists_eq_add_one.2 (commandFrame_pos p c s)
  have hedges : List.replicate m pin ++ [pin] = List.replicate (m + 1) pin := List.replicate_succ'.symm
  have hstim : (s.built p c tl).stim = (List.replicate m pin ++ [pin]).map Stimulus.pins ++ rest := by
    rw [hedges, List.map_replicate, ← hm, ← hs, built_stim]
  have hnoReset : ∀ q ∈ List.replicate m pin ++ [pin], q.rst = false := fun q hq => by
    rw [hedges] at hq
    rw [List.eq_of_mem_replicate hq, hrst]
  have hcount : 0 + (List.replicate m pin ++ [pin]).countP (fun q => q.outReady) = (s.commandFrame p c).length := by
    rw [hedges, List.countP_replicate, hready, if_pos rfl, Nat.zero_add, hm]
  have hrun := run_drain hready (List.replicate m pin) (s := s.built p c tl) hh rfl hstim hnoReset hcount
  rw [List.length_replicate, ← hm, built_sink] at hrun
  exact hrun

/-- An edge that presents a command word, one that builds, and one per element of the frame at which the sink takes it,
leave the block as the host's blocking call does (`State.transmit_eq`). -/
theorem run_command {s : State} {p₀ p₁ p : Pins} {rest : List Stimulus} {n : Nat} (hp : s.phase = .idle)
    (hrst₀ : p₀.rst = false) (hvalid : p₀.cmdValid = true) (hrst₁ : p₁.rst = false) (hrst : p.rst = false)
    (hready : p.outReady = true) (hn : n = (s.commandFrame (cwProto p₀.cw) (cwCfg p₀.cw)).length)
    (hs : s.stim = .pins p₀ :: .pins p₁ :: (List.replicate n (.pins p) ++ rest)) :
    ∃ tl, Host.Core.run core (n + 2) s =
      .next { s.sent (cwProto p₀.cw) (cwCfg p₀.cw) tl with stim := rest } := by
  have haccept := step_accept hs hp hrst₀ hvalid
  generalize cwProto p₀.cw = pr at hn haccept ⊢
  generalize cwCfg p₀.cw = c at hn haccept ⊢
  subst hn
  generalize hd : List.replicate (s.commandFrame pr c).length (Stimulus.pins p) ++ rest = drain at hs haccept
  obtain ⟨tl, hbuild, hh, -⟩ := State.build_accept_eq pr c { s with stim := drain }
  have hbuilt := step_build (s := { s with stim := .pins p₁ :: drain }.accept pr c) (rest := drain) rfl rfl hrst₁
  have hdrain := run_built (rest := rest) hh hrst hready (by rw [commandFrame_with_stim, hd])
  rw [commandFrame_with_stim, sent_with_stim] at hdrain
  exact ⟨tl, (run_succ haccept _).trans ((run_succ (hbuilt.trans (outcome_eq_next.2 hbuild)) _).trans hdrain)⟩

/-! ### The obligations -/

/-- Settles O57: two blocking calls with the wait between them; the Orange frame is no longer than the Green one. -/
theorem sendTransmitsOrangeThenGreen : Obligations.SendTransmitsOrangeThenGreen := by
  intro s c hp
  obtain ⟨tlO, hO, hhO, hkeepO⟩ := State.transmit_eq hp .orange c
  obtain ⟨tlG, hG, hhG, hkeepG⟩ := State.transmit_eq (s := (s.sent .orange c tlO).hostWait Config.gapUs) rfl .green c
  have hsend : s.sendBoth c = .ok (((s.sent .orange c tlO).hostWait Config.gapUs).sent .green c tlG) := by
    simp only [State.sendBoth, hp, hO, bind_ok, hG]
  have hlenO : tlO.len ≤ 211 := hhO.1 ▸ commandFrame_length_le .orange c s
  have hlenG : tlG.len = 211 := hhG.1.trans (greenFrame_length _)
  refine ⟨_, Config.any3 s.draws, _, _, outcome_eq_next.2 hsend, rfl, rfl, rfl, hhG, ?_, fun i hi => ?_⟩
  · rw [hp, ← hlenG, hhG.1]
    rfl
  · exact (hkeepG i (hlenG ▸ hi)).trans (hkeepO i (hlenO.trans hi))

/-- Settles O56: the edges leave what the host's blocking call leaves. -/
theorem everyCommandRunsToTheEnd : Obligations.EveryCommandRunsToTheEnd := by
  rintro s _ p₀ p₁ p rest hp hrst₀ hvalid rfl hrst₁ hrst hready
  obtain ⟨tl, hrun⟩ := run_command (s := { s with stim := .pins p₀ :: .pins p₁ :: (List.replicate
    (s.commandFrame (cwProto p₀.cw) (cwCfg p₀.cw)).length (.pins p) ++ rest) }) hp hrst₀ hvalid hrst₁ hrst hready
    (congrArg List.length (commandFrame_with_stim _ _ s _).symm) rfl
  rw [sent_with_stim] at hrun
  refine ⟨_, _, commandFrame_pos _ _ _, commandFrame_length_le _ _ _, hrun, rfl, rfl, sent_proto _ _ tl _,
    sent_cfg _ _ tl _, fun hbit => ?_, fun hbit => ?_, congrArg List.length (frameOf_sent _ _ tl s), ?_⟩
  · rw [cwProto_orange hbit]
    exact ⟨_, rfl⟩
  · rw [cwProto_green hbit]
    exact ⟨_, _, rfl⟩
  · rw [← row_freq_cwProto]
    exact congrArg (fun l => s.sink ++ frameBeats l _) (frameOf_sent _ _ tl s).symm

/-- Settles O47, by what a taken command builds. -/
theorem encOrangeBuildsItsFrame : Obligations.EncOrangeBuildsItsFrame := by
  intro s c h
  obtain ⟨tl, e, hh, hkeep⟩ := State.command_eq h
  exact ⟨s.built .orange c tl, Config.any3 s.draws, outcome_eq_next.2 e, hh, rfl, rfl, hkeep⟩

/-- Settles O48, by what a taken command builds. -/
theorem encGreenBuildsItsFrame : Obligations.EncGreenBuildsItsFrame := by
  intro s c h
  obtain ⟨tl, e, hh, hkeep⟩ := State.command_eq h
  exact ⟨s.built .green c tl, Config.any3 s.draws, Config.any8 s.draws, outcome_eq_next.2 e, hh, rfl, rfl, rfl, hkeep⟩

/-- Settles O46: each field is the number its bits of the word are. -/
theorem commandAcceptLatchesTheWord : Obligations.CommandAcceptLatchesTheWord := by
  intro s cw
  refine ⟨fun hp => ?_, fun hp => execCmdAccept_busy hp cw⟩
  rw [← cwProto_eq_ite_div, ← cwCfg_eq_div]
  exact execCmdAccept_idle hp cw

/-- Settles O49: in each of these states the operation answers the state it was given. -/
theorem busyBlockTakesNoCommand : Obligations.BusyBlockTakesNoCommand := fun _ c =>
  ⟨fun hp => ⟨outcome_eq_next.2 (State.command_drain hp .orange c), outcome_eq_next.2 (State.command_drain hp .green c),
      outcome_eq_next.2 (State.sendBoth_drain hp c)⟩,
    fun hp h => outcome_eq_next.2 (State.command_other hp h), fun hp h => outcome_eq_next.2 (State.command_other hp h),
    fun hp => outcome_eq_next.2 (State.sendBoth_build hp c)⟩

/-- Settles O51, by the two cases of a transfer. -/
theorem drainBeatTransfersOneElement : Obligations.DrainBeatTransfersOneElement := by
  constructor
  · intro s d hp hlt hd
    have hlast : s.rptr = s.tl.len - 1 ↔ s.rptr + 1 = s.tl.len := by omega
    simp only [hlast]
    exact outcome_eq_next.2 (State.beat_eq_ok.2 (.inr ⟨hp, hlt, d, hd, rfl⟩))
  · exact fun s hp => outcome_eq_next.2 (State.beat_eq_ok.2 (.inl ⟨hp, rfl⟩))

end Sys2Proof.Machine
end

section
/-! PROOFS. A clock edge: what it runs, in the priority order of R203, and that from a state with the invariant it always
answers a next state. -/

namespace Sys2Proof.Machine

open Sys2Proof.Safety

/-! ### What an edge fetches (R203) -/

theorem edgeFetch_rst {p : Pins} (hrst : p.rst = true) (s : State) : edgeFetch p s = .run .reset := by
  simp [edgeFetch, hrst]

theorem edgeFetch_drain {p : Pins} {s : State} (hrst : p.rst = false) (hp : s.phase = .drain) :
    edgeFetch p s = if p.outReady then .run .drainBeat else .wait := by
  simp [edgeFetch, hrst, hp]

theorem edgeFetch_build {p : Pins} {s : State} (hrst : p.rst = false) (hp : s.phase = .build) :
    edgeFetch p s = .run (commandOf s.proto s.cfg) := by
  simp [edgeFetch, hrst, hp, latchedCommand]

theorem edgeFetch_idle {p : Pins} {s : State} (hrst : p.rst = false) (hp : s.phase = .idle) :
    edgeFetch p s = if p.cmdValid then .run (.cmdAccept p.cw) else .wait := by
  simp [edgeFetch, hrst, hp]

/-! ### From the fetch to the step -/

theorem fetch_of_pins {s : State} {p : Pins} {rest : List Stimulus} (hs : s.stim = .pins p :: rest) :
    fetch s = edgeFetch p s := by
  simp [fetch, hs]

theorem step_of_edgeFetch_run {s : State} {p : Pins} {rest : List Stimulus} {i : Instr}
    (hs : s.stim = .pins p :: rest) (h : edgeFetch p s = .run i) : step s = exec i { s with stim := rest } := by
  rw [step_of_fetch_run ((fetch_of_pins hs).trans h), State.popStim_of_stim hs]

theorem step_of_edgeFetch_wait {s : State} {p : Pins} {rest : List Stimulus}
    (hs : s.stim = .pins p :: rest) (h : edgeFetch p s = .wait) : step s = .next { s with stim := rest } := by
  rw [step_of_fetch_wait ((fetch_of_pins hs).trans h), State.popStim_of_stim hs]

/-! ### The operations of an edge answer -/

/-- A whole frame with an element still to come has that element to transfer (R183). -/
theorem exec_drainBeat_answers {s : State} (hp : s.phase = .drain) (hd : Draining s) :
    ∃ t, exec .drainBeat s = .next t := by
  obtain ⟨hholds, -, hlt, -⟩ := hd
  exact ⟨_, outcome_eq_next.2 (State.beat_holds hholds hp (hholds.1 ▸ hlt))⟩

/-- In `BUILD` the latched command is taken, and its frame fits the store (R181, R182). -/
theorem exec_latchedCommand_answers {s : State} (hp : s.phase = .build) : ∃ t, exec (latchedCommand s) s = .next t := by
  have htakes : Takes s.proto s.cfg s := .inr ⟨hp, rfl, rfl⟩
  obtain ⟨tl, hcommand, -⟩ := State.command_eq htakes
  exact ⟨_, (exec_commandOf s.proto s.cfg s).trans (outcome_eq_next.2 hcommand)⟩

/-! ### The obligations -/

/-- Settles O11: each operation an edge can fetch answers in the phase it is fetched in; only a transfer needs the
invariant. -/
theorem clockEdgesNeverStop : Obligations.ClockEdgesNeverStop := by
  intro s hinv hports
  obtain ⟨-, -, hdraining⟩ := inv_iff.1 hinv
  obtain ⟨p, hf⟩ := fetch_atPorts hports
  have hwait (hw : edgeFetch p s = .wait) : ∃ t, step s = .next t := ⟨_, step_of_fetch_wait (hf.trans hw)⟩
  have hrun {i : Instr} (hi : edgeFetch p s = .run i) (h : ∃ t, exec i s.popStim = .next t) : ∃ t, step s = .next t :=
    step_of_fetch_run (hf.trans hi) ▸ h
  obtain hr | ⟨hp, hb | hw⟩ | ⟨hp, hl⟩ | ⟨hp, ha | hw⟩ := edgeFetch_cases p s
  · exact hrun hr ⟨_, rfl⟩
  · exact hrun hb (exec_drainBeat_answers (s := s.popStim) hp (hdraining hp))
  · exact hwait hw
  · exact hrun hl (exec_latchedCommand_answers (s := s.popStim) hp)
  · exact hrun ha ⟨_, execCmdAccept_idle (s := s.popStim) hp p.cw⟩
  · exact hwait hw

/-- Settles O5, by what the edge fetches in each phase. -/
theorem clockEdgePriority : Obligations.ClockEdgePriority := by
  intro s p rest hs
  refine ⟨fun hrst => step_of_edgeFetch_run hs (edgeFetch_rst hrst s), fun hrst hp hready => ?_,
    fun hrst hp hready => ?_, fun hrst hp hproto => ?_, fun hrst hp hproto => ?_, fun hp => ?_,
    fun hrst hp hvalid => ?_, fun hrst hp hvalid => ?_⟩
  · exact step_of_edgeFetch_run hs (by rw [edgeFetch_drain hrst hp, hready]; rfl)
  · exact step_stall hs hp hrst hready
  · exact step_of_edgeFetch_run hs (by rw [edgeFetch_build hrst hp, hproto]; rfl)
  · exact step_of_edgeFetch_run hs (by rw [edgeFetch_build hrst hp, hproto]; rfl)
  · exact ⟨by simp [cmdReady, hp], outValid_eq_false (by simp [hp])⟩
  · exact step_of_edgeFetch_run hs (by rw [edgeFetch_idle hrst hp, hvalid]; rfl)
  · exact step_of_edgeFetch_wait hs (by rw [edgeFetch_idle hrst hp, hvalid]; rfl)

end Sys2Proof.Machine
end

section
/-! PROOFS. The reset pin: the operation it runs, what the block's signals are in the phase it leaves, and the edge that takes
it. -/

namespace Sys2Proof.Machine

/-- `RESET` has no guard: it answers the written state, whatever the phase (R230). -/
theorem exec_reset (s : State) : exec .reset s = .next s.resetPin := rfl

/-- The ports in `IDLE`: the block takes a command, offers no element and is not busy (R35, R51, R52). -/
theorem signals_of_idle {s : State} (hp : s.phase = .idle) : cmdReady s = true ∧ outValid s = false ∧ busy s = false :=
  ⟨cmdReady_iff.2 hp, outValid_eq_false (by simp [hp]), by simp [busy, hp]⟩

/-- The pin goes before whatever else the edge asks for: the step is `RESET`, with the edge taken off the stimulus (R203). -/
theorem step_of_rst {s : State} {p : Pins} {rest : List Stimulus} (hs : s.stim = .pins p :: rest) (hrst : p.rst = true) :
    step s = .next { s with stim := rest }.resetPin :=
  (step_of_edgeFetch_run hs (edgeFetch_rst hrst s)).trans (exec_reset _)

/-- Settles O7: an edge with the pin runs `RESET`, which leaves the block in `IDLE`. -/
theorem resetPinWritesFiveRegisters : Obligations.ResetPinWritesFiveRegisters :=
  ⟨exec_reset, fun _ _ _ hs hrst => ⟨_, step_of_rst hs hrst, rfl, signals_of_idle (State.resetPin_phase _)⟩⟩

end Sys2Proof.Machine
end
